-- ==== Sys2Proof/Word.lean ====
section
/-! DEFINITION. The word types of the BF-MH3 engine (spec/00_scope.md R4, R5). Arithmetic on words is
`BitVec`'s own: `+`, `*` wrap modulo 2^64 (R7), `^^^` is `xor64`, `<<<` and `>>>` are `shl64` and `shr64` (R6). -/

namespace Sys2Proof

/-- A byte: a word of 8 bits (R5). -/
abbrev Byte := BitVec 8

/-- `u64`: `XLEN`, `MW` and `LENW` are all 64 bits (R4). -/
abbrev Word := BitVec 64

/-- 32 bits: the seed (`u32`, R4), the probe counter `I` (`u32`, R16), and `K` and `num_hashes`
(`i32`, two's complement, R12), the last two read as signed by `BitVec.toInt`. -/
abbrev Word32 := BitVec 32

/-- A command or response packet: the bytes in increasing packet offset (R51). -/
abbrev Packet := List Byte

/-- The key operand `KEY[0 .. KLEN-1]` in offset order; `KLEN` is its length (R33, R100). -/
abbrev Key := List Byte

end Sys2Proof
end

