-- ==== Sys2Proof/Machine/Operands.lean ====
section
/-! DEFINITION. Byte order and operand assembly: little-endian wherever bytes become a number
(spec/20_memory.md R34, spec/30_encoding.md R53), zero extension, byte reversal (spec/00_scope.md R6), and the
two reads of the KEY space (R6 `MemRead`, R33). -/

namespace Sys2Proof.Machine

/-- `f0 + f1*2^8 + ...`: the unsigned value of bytes at increasing offsets (R53). -/
def leNat : List Byte → Nat
  | [] => 0
  | b :: bs => b.toNat + 256 * leNat bs

/-- The low `n` bytes of `v`, least significant first: the field that `leNat` reads back (R53). -/
def leBytes : Nat → Nat → List Byte
  | 0, _ => []
  | n + 1, v => BitVec.ofNat 8 v :: leBytes n (v / 256)

/-- `le64` (R6); bytes that are absent at the top count as zero, as in the tail (R34 (b), R75). -/
def le64 (bs : List Byte) : Word := BitVec.ofNat 64 (leNat bs)

/-- `n` bytes of a packet from offset `off` (R54). -/
def fieldBytes (p : Packet) (off n : Nat) : List Byte := (p.drop off).take n

/-- An 8-byte field of a packet (R53). -/
def field64 (p : Packet) (off : Nat) : Word := BitVec.ofNat 64 (leNat (fieldBytes p off 8))

/-- A 4-byte field of a packet (R53). For `num_hashes` the value is `BitVec.toInt` of it. -/
def field32 (p : Packet) (off : Nat) : Word32 := BitVec.ofNat 32 (leNat (fieldBytes p off 4))

/-- The 8 bytes of a 64-bit field (R53). -/
def bytes64 (v : Word) : List Byte := leBytes 8 v.toNat

/-- The 4 bytes of a 32-bit field (R53). -/
def bytes32 (v : Word32) : List Byte := leBytes 4 v.toNat

/-- `zext_64` (R6): the seed is zero-extended, never sign-extended (R71). -/
def zext64 (v : Word32) : Word := v.setWidth 64

/-- `bswap64` (R6): byte reversal. -/
def bswap64 (a : Word) : Word := le64 (bytes64 a).reverse

/-- `MemRead(a, 8)` on the KEY space: `le64(KEY[a], ..., KEY[a+7])` (R6, R34 (a)). -/
def memRead64 (key : Key) (a : Nat) : Word := le64 ((key.drop a).take 8)

/-- `umod(a, m)`, `m >= 1`: the unsigned remainder (R6). Callers see to it that `m` is not 0 (R38, log 5). -/
def umod (a m : Word) : Word := a % m

/-- How many probes `for I in 0 .. K` makes: `K` read as a signed i32, none when `K <= 0` (R6, R12). -/
def probeCount (K : Word32) : Nat := K.toInt.toNat

end Sys2Proof.Machine
end

