-- ==== Sys2Proof/Syntax.lean ====
section
/-! DEFINITION. The seven commands (spec/30_encoding.md R50), one constructor per row of
spec/opcode_table.json, and the pseudo-command HASHD (R57). -/

namespace Sys2Proof

/-- A command with its operands (R50). `KLEN` is the length of `key` (R33). -/
inductive Instr where
  /-- CONFIG `size` (u64), `num_hashes` (i32): R111. -/
  | config (size : Word) (numHashes : Word32)
  /-- CLEAR, the source's `reset()`: R112. -/
  | clear
  /-- HASH (`swap = false`) and HASH.S (`swap = true`): R80. -/
  | hash (swap : Bool) (seed : Word32) (key : Key)
  /-- ADD `key`: R115. -/
  | add (key : Key)
  /-- EXISTS `key`: R116. -/
  | existsKey (key : Key)
  /-- ADDH `h1`, `h2`: R113. -/
  | addh (h1 h2 : Word)
  /-- EXISTSH `h1`, `h2`: R114. -/
  | existsh (h1 h2 : Word)
  deriving DecidableEq, Repr

/-- The pseudo-command HASHD `key`: `HASH 4011, key` (R57). -/
def Instr.hashd (key : Key) : Instr := .hash false 4011 key

end Sys2Proof
end

