-- ==== Sys2Proof/WellFormed.lean ====
section
/-! DEFINITION. Which commands a packet can carry: the key's length fits the 64-bit `KLEN` field
(spec/20_memory.md R33, `0 <= KLEN < 2^64`). Every value of every other operand is accepted (R60). -/

namespace Sys2Proof

/-- `KLEN < 2^64` (R33). -/
def Key.fits (key : Key) : Bool := decide (key.length < 2 ^ 64)

/-- A command some packet encodes: its key, if it has one, fits `KLEN` (R33, R60). -/
def Instr.wellFormed : Instr → Bool
  | .config _ _ => true
  | .clear => true
  | .hash _ _ key => Key.fits key
  | .add key => Key.fits key
  | .existsKey key => Key.fits key
  | .addh _ _ => true
  | .existsh _ _ => true

end Sys2Proof
end

