-- ==== Sys2Proof/Decode.lean ====
section
/-! DEFINITION. Packets to commands and back (spec/30_encoding.md R51 to R56): the eight opcode bytes, the five
formats, the decoder (total, refusing by name), the encoder, and the reading of one row of
spec/opcode_table.json. -/

namespace Sys2Proof

open Machine

/-- The five packet formats (R54). -/
inductive Format where
  | F0 | FC | FS | FK | FH
  deriving DecidableEq, Repr

/-- What the opcode byte selects (R52): the row of the table, with HASH's `SWAP` bit. -/
inductive Opcode where
  | config
  | clear
  | hash (swap : Bool)
  | add
  | existsKey
  | addh
  | existsh
  deriving DecidableEq, Repr

/-- Why a packet is illegal (R56). All four are answered alike, with `ERR(IllegalCommand)` (R143). -/
inductive IllegalPacket where
  /-- The packet has no byte. -/
  | empty
  /-- Byte 0 is one of the 248 reserved values. -/
  | unknownOpcode (b : Byte)
  /-- Too short to hold the fixed fields of its format. -/
  | truncated
  /-- The total length is not the expected one (R55). -/
  | wrongLength
  deriving DecidableEq, Repr

/-- The exhaustive list of defined opcode bytes (R52). -/
def Opcode.ofByte (b : Byte) : Option Opcode :=
  if b = 0x01 then some .config
  else if b = 0x02 then some .clear
  else if b = 0x10 then some (.hash false)
  else if b = 0x11 then some (.hash true)
  else if b = 0x20 then some .add
  else if b = 0x21 then some .existsKey
  else if b = 0x30 then some .addh
  else if b = 0x31 then some .existsh
  else none

/-- The opcode byte of R52's list; for HASH bit 0 is `SWAP`. -/
def Opcode.byte : Opcode → Byte
  | .config => 0x01
  | .clear => 0x02
  | .hash false => 0x10
  | .hash true => 0x11
  | .add => 0x20
  | .existsKey => 0x21
  | .addh => 0x30
  | .existsh => 0x31

/-- The format column of R52's list. -/
def Opcode.format : Opcode → Format
  | .config => .FC
  | .clear => .F0
  | .hash _ => .FS
  | .add => .FK
  | .existsKey => .FK
  | .addh => .FH
  | .existsh => .FH

/-- The length of a packet up to the key, if it has one: the fixed fields of R54. -/
def Format.fixedLength : Format → Nat
  | .F0 => 1
  | .FC => 13
  | .FS => 13
  | .FK => 9
  | .FH => 17

/-- The `KLEN` field of a packet of the format (R54): at offset 5 in FS, at offset 1 in FK, and no key,
so 0, in the others. -/
def Format.klen (f : Format) (p : Packet) : Nat :=
  match f with
  | .F0 => 0
  | .FC => 0
  | .FS => (field64 p 5).toNat
  | .FK => (field64 p 1).toNat
  | .FH => 0

/-- The expected total length: F0 1, FC 13, FH 17, FS `13 + KLEN`, FK `9 + KLEN` (R55). -/
def Format.expectedLength (f : Format) (p : Packet) : Nat := f.fixedLength + f.klen p

/-- The operands at the offsets of R54, of a packet whose opcode and length are right. -/
def operands (op : Opcode) (p : Packet) : Instr :=
  match op with
  | .config => .config (field64 p 1) (field32 p 9)
  | .clear => .clear
  | .hash swap => .hash swap (field32 p 1) (p.drop 13)
  | .add => .add (p.drop 9)
  | .existsKey => .existsKey (p.drop 9)
  | .addh => .addh (field64 p 1) (field64 p 9)
  | .existsh => .existsh (field64 p 1) (field64 p 9)

/-- The decoder: total on any bytes, refusing by name every illegal packet (R55, R56). -/
def decode (p : Packet) : Except IllegalPacket Instr :=
  match p with
  | [] => .error .empty
  | b :: _ =>
    match Opcode.ofByte b with
    | none => .error (.unknownOpcode b)
    | some op =>
      if p.length < op.format.fixedLength then .error .truncated
      else if p.length ≠ op.format.expectedLength p then .error .wrongLength
      else .ok (operands op p)

/-- The opcode of a command. -/
def Instr.opcode : Instr → Opcode
  | .config _ _ => .config
  | .clear => .clear
  | .hash swap _ _ => .hash swap
  | .add _ => .add
  | .existsKey _ => .existsKey
  | .addh _ _ => .addh
  | .existsh _ _ => .existsh

/-- The bytes after the opcode byte, field by field (R54). -/
def Instr.operandBytes : Instr → List Byte
  | .config size numHashes => bytes64 size ++ bytes32 numHashes
  | .clear => []
  | .hash _ seed key => bytes32 seed ++ (leBytes 8 key.length ++ key)
  | .add key => leBytes 8 key.length ++ key
  | .existsKey key => leBytes 8 key.length ++ key
  | .addh h1 h2 => bytes64 h1 ++ bytes64 h2
  | .existsh h1 h2 => bytes64 h1 ++ bytes64 h2

/-- The packet of a well-formed command (R52, R54). -/
def encode (i : Instr) : Packet := i.opcode.byte :: i.operandBytes

/-- `p` with zero bytes at its end, up to `n` bytes in all. -/
def padTo (n : Nat) (p : Packet) : Packet := p ++ List.replicate (n - p.length) 0

/-- The packet the table's numbering stands for: the low `nbits` bits of `w` as bytes, the first byte the
lowest bits, then zero bytes up to the length R55 expects of that opcode and `KLEN` (log 9). -/
def tablePacket (nbits w : Nat) : Packet :=
  let given := leBytes ((nbits + 7) / 8) w
  match given with
  | [] => given
  | b :: _ =>
    match Opcode.ofByte b with
    | none => given
    | some op =>
      let fixed := padTo op.format.fixedLength given
      padTo (op.format.expectedLength fixed) fixed

/-- The command the decoder reads from a row's bits (spec/opcode_table.json). -/
def decodeTableWord (nbits w : Nat) : Option Instr :=
  match decode (tablePacket nbits w) with
  | .ok i => some i
  | .error _ => none

end Sys2Proof
end

