-- ==== Sys2Proof/Config.lean ====
section
/-! DEFINITION. What an implementation fixes (spec/00_scope.md R4) and the free values: the shape of the
constants record `MixConst` (R70), the default of `M_MAX`, the default of `KLEN_TRUSTED`, and what the working
registers hold between commands (R23), which no proof can evaluate. -/

namespace Sys2Proof

/-- `MixConst` (R70): the hash constants. Its values are `Machine.mixConst`. -/
structure MixConst where
  C1 : Word
  C2 : Word
  R_K1 : Nat
  R_K2 : Nat
  R_H1 : Nat
  R_H2 : Nat
  MUL_H : Word
  A_H1 : Word
  A_H2 : Word
  FMIX_SHIFT : Nat
  FMIX_M1 : Word
  FMIX_M2 : Word
  DEFAULT_SEED : Word32
  deriving DecidableEq, Repr

/-- The default of `M_MAX`, `2^64 - 1`: no limit beyond the width of `M` (R4). The parameter itself is
`Machine.State.mMax`, so that a statement about every state holds for every capacity (log 1). -/
def Config.mMaxDefault : Word := 0xffffffffffffffff

/-- The default of `KLEN_TRUSTED`, `2^31 - 1` (R4, R33). The parameter itself, the longest key for which agreement with
the original program is claimed, is open: it is an argument of `Machine.Key.trusted`. No command reads it, since the
rules give a value for every `KLEN < 2^64` (log 8). -/
def Config.klenTrustedDefault : Nat := 2 ^ 31 - 1

/-- The six 64-bit working registers (R14 to R16), as names for their free values. -/
inductive WorkReg where
  | H1 | H2 | K1 | K2 | LEN | IDX
  deriving DecidableEq, Repr

/-- FREE VALUE (R23, U4): what a 64-bit working register holds after the `n`-th end of a command. -/
opaque Config.freeWord : WorkReg → Nat → Word

/-- FREE VALUE (R23, U4): what the probe counter `I` holds after the `n`-th end of a command. -/
opaque Config.freeI : Nat → Word32

/-- FREE VALUE (R23, U4): what the accumulator `ACC` holds after the `n`-th end of a command. -/
opaque Config.freeACC : Nat → Bool

end Sys2Proof
end

