-- ==== Sys2Proof/Machine/State.lean ====
section
/-! DEFINITION. The state of one BF-MH3 engine and of the host's side of its one command port, as plain data
(spec/10_state.md R10 to R25, R20; spec/20_memory.md R30), the reasons a step can stop, and the state right
after power-on reset (R22, R161). -/

namespace Sys2Proof.Machine

/-- The bit array `BITS` (R13, R30): the indices of the bits that are true, strictly rising; every other index
below `M` reads false. The array's length is the register `M` and is not held twice (log 4). -/
structure Memory where
  ones : List Nat
  deriving DecidableEq, Repr

/-- The working registers (R14 to R16, R25): written inside a command before they are read, unspecified
between commands (R23). -/
structure Work where
  H1 : Word
  H2 : Word
  K1 : Word
  K2 : Word
  LEN : Word
  IDX : Word
  I : Word32
  ACC : Bool
  deriving DecidableEq, Repr

/-- The four error codes (R140 to R144). -/
inductive ErrorCode where
  | invalidConfiguration
  | illegalCommand
  | notConfigured
  | capacityExceeded
  deriving DecidableEq, Repr

/-- The response that ends a command (R58). -/
inductive Response where
  | ok
  | bool (b : Bool)
  | pair (h1 h2 : Word)
  | err (code : ErrorCode)
  deriving DecidableEq, Repr

/-- What the host can do to the engine (R168): hand it one whole command packet (R51), or reset it (R160). -/
inductive HostEvent where
  | packet (p : Packet)
  | powerOn
  deriving DecidableEq, Repr

/-- The engine and its port. `M`, `K` and `BITS` are the architectural state (R10). -/
structure State where
  /-- The bit-array length, 64 bits unsigned (R11). -/
  M : Word
  /-- The probe count, 32 bits two's complement; 0 means unconfigured (R12, R17). -/
  K : Word32
  /-- The bit array (R13). -/
  BITS : Memory
  /-- The working registers (R14 to R16). -/
  work : Work
  /-- The parameter `M_MAX` (R4): fixed for one machine, written by nothing (log 1). -/
  mMax : Word
  /-- Host side: the program, a finite list (R20), with power-on resets among its packets (R160). -/
  program : List HostEvent
  /-- Host side: the position in the program (R20). -/
  index : Nat
  /-- Host side: the responses received so far, oldest first (R51, R58). -/
  responses : List Response
  /-- The model's own: how often the working registers have become unspecified (log 3, log 16, log 17). -/
  freeTick : Nat
  deriving DecidableEq, Repr

/-- Why the machine stops with a fault. The spec's own errors are no faults of this kind: they are responses,
after which the engine is ready for the next command (R140). -/
inductive Fault where
  /-- Raised by ADD, EXISTS, ADDH and EXISTSH in a state with `K >= 1` and `M = 0`, where a probe would divide
  by zero (R38). Safe: no state that satisfies R18 raises it, and the spec gives `umod(a, 0)` no value. -/
  | umodByZero
  deriving DecidableEq, Repr

/-- Why an instruction has no meaning. -/
inductive Refusal where
  /-- Raised by an arm of `exec` whose instruction is not modelled. Safe: nothing follows from it. -/
  | notModelled (mnemonic : String)
  deriving DecidableEq, Repr

/-- The working registers right after power-on: all zero, the model's choice (R22 leaves them unspecified;
DESIGN CHOICE, log 2). -/
def Work.reset : Work :=
  { H1 := 0, H2 := 0, K1 := 0, K2 := 0, LEN := 0, IDX := 0, I := 0, ACC := false }

/-- Right after power-on reset (R22, R161): unconfigured, `M = 0`, no elements in `BITS`; the host has issued
nothing and received nothing. -/
def State.reset : State :=
  { M := 0, K := 0, BITS := ⟨[]⟩, work := Work.reset, mMax := Config.mMaxDefault,
    program := [], index := 0, responses := [], freeTick := 0 }

end Sys2Proof.Machine
end

