-- ==== Sys2Proof/Machine/Ops.lean ====
section
/-! DEFINITION. The named operations: reading and writing one bit of `BITS` (spec/20_memory.md R31, R32), ending a
command with a response (R58), raising an error (R140), power-on reset (R160), and the host's side of the port
(R20). -/

namespace Sys2Proof.Machine

/-- A bit array whose bits are all false (R111, R112). -/
def Memory.allFalse : Memory := ⟨[]⟩

/-- The bit read `BITS[idx]` (R31). -/
def Memory.read (b : Memory) (idx : Nat) : Bool := decide (idx ∈ b.ones)

/-- `idx` put in its place among strictly rising indices. -/
def insertIndex (idx : Nat) : List Nat → List Nat
  | [] => [idx]
  | j :: js =>
    if idx < j then idx :: j :: js
    else if idx = j then j :: js
    else j :: insertIndex idx js

/-- The bit write `BITS[idx] <- v` (R32). -/
def Memory.write (b : Memory) (idx : Nat) (v : Bool) : Memory :=
  if v then ⟨insertIndex idx b.ones⟩ else ⟨b.ones.filter (fun j => j != idx)⟩

/-- The canonical form of an array of `len` bits: strictly rising indices below `len`. -/
abbrev Memory.wf (len : Nat) (b : Memory) : Prop :=
  b.ones.Pairwise (fun i j => i < j) ∧ ∀ i ∈ b.ones, i < len

/-- The working registers after the `n`-th end of a command: free values (R23, log 3). That they depend on `n` alone,
so that two commands run from one state leave equal ones whatever the commands, is the model's choice: the spec does
not say whether they are equal (DESIGN CHOICE, log 17). -/
def freeWork (n : Nat) : Work :=
  { H1 := Config.freeWord .H1 n, H2 := Config.freeWord .H2 n, K1 := Config.freeWord .K1 n,
    K2 := Config.freeWord .K2 n, LEN := Config.freeWord .LEN n, IDX := Config.freeWord .IDX n,
    I := Config.freeI n, ACC := Config.freeACC n }

/-- The working registers become unspecified (R23). -/
def State.scramble (s : State) : State :=
  { s with work := freeWork s.freeTick, freeTick := s.freeTick + 1 }

/-- `respond r` (R6, R58): the command ends, `r` goes to the host, the working registers are unspecified from
here on (R23). -/
def respond (r : Response) (s : State) : State :=
  let t := s.scramble
  { t with responses := s.responses ++ [r] }

/-- `raise e` (R6, R140): the command ends at once with the response `ERR(e)`; `M`, `K` and `BITS` are as they
were; nothing is saved, no handler runs, and there is nothing to return to (R148). -/
def raise (e : ErrorCode) (s : State) : State := respond (.err e) s

/-- The check every filter command makes first: `if K = 0: raise NotConfigured` (R142). -/
def whenConfigured (s : State) (body : Host.Outcome State Fault Refusal) : Host.Outcome State Fault Refusal :=
  if s.K = 0 then .next (raise .notConfigured s) else body

/-- A probe loop that would run with `M = 0` divides by zero, which the spec gives no value (R38, log 5). -/
def whenDivisible (s : State) (body : Host.Outcome State Fault Refusal) : Host.Outcome State Fault Refusal :=
  if 0 < probeCount s.K ∧ s.M = 0 then .fault .umodByZero else body

/-- Power-on reset (R160, R161): unconfigured, `M = 0`, `BITS` without elements, the working registers
unspecified. The parameter and the host's side are not the engine's and stay. -/
def powerOnReset (s : State) : State :=
  let t := s.scramble
  { t with M := 0, K := 0, BITS := Memory.allFalse }

/-- What the host does next, if its program is not over (R20). -/
def State.fetch (s : State) : Option HostEvent := s.program[s.index]?

/-- The host's position moves on by exactly 1 (R20). -/
def State.advance (s : State) : State := { s with index := s.index + 1 }

/-- The state with `e` as the event that is fetched next, in the place of whatever stood there. -/
def State.placeNext (s : State) (e : HostEvent) : State :=
  { s with program := s.program.take s.index ++ e :: s.program.drop (s.index + 1),
           index := min s.index s.program.length }

end Sys2Proof.Machine
end

