-- ==== Sys2Proof/Machine/Control.lean ====
section
/-! DEFINITION. The configuration commands (spec/42_filter_commands.md R111, R112): CONFIG and CLEAR. -/

namespace Sys2Proof.Machine

/-- CONFIG (R111), with its two checks in the order of R145. -/
def execConfig (size : Word) (numHashes : Word32) (s : State) : Host.Outcome State Fault Refusal :=
  if size = 0 ∨ numHashes.toInt ≤ 0 then .next (raise .invalidConfiguration s)
  else if s.mMax < size then .next (raise .capacityExceeded s)
  else .next (respond .ok { s with M := size, K := numHashes, BITS := Memory.allFalse })

/-- CLEAR (R112). -/
def execClear (s : State) : Host.Outcome State Fault Refusal :=
  whenConfigured s (.next (respond .ok { s with BITS := Memory.allFalse }))

end Sys2Proof.Machine
end

