-- ==== Sys2Proof/Machine/Mixer.lean ====
section
/-! DEFINITION. The Mixing Hash, MurmurHash3 x64-128 (spec/40_mixing_hash.md R70 to R79): its constants, its five
networks as functions of words, the whole function `mh3`, and the same hash as the engine runs it, on the working
registers `LEN`, `H1`, `H2`, `K1`, `K2`. -/

namespace Sys2Proof.Machine

/-- The constants record (R70). `A_H2`, `FMIX_M1` and `FMIX_M2` are the public algorithm's, which the source does
not give (log 6). -/
def mixConst : MixConst :=
  { C1 := 0x87c37b91114253d5, C2 := 0x4cf5ad432745937f,
    R_K1 := 31, R_K2 := 33, R_H1 := 27, R_H2 := 31,
    MUL_H := 5, A_H1 := 0x52dce729, A_H2 := 0x38495ab5,
    FMIX_SHIFT := 33, FMIX_M1 := 0xff51afd7ed558ccd, FMIX_M2 := 0xc4ceb9fe1a85ec53,
    DEFAULT_SEED := 4011 }

/-- `rotl64(a, n)`, `1 <= n <= 63` (R6). -/
def rotl64 (a : Word) (n : Nat) : Word := (a <<< n) ||| (a >>> (64 - n))

/-- The lane mix for `k1` (R72). -/
def mixk1 (c : MixConst) (k : Word) : Word := rotl64 (k * c.C1) c.R_K1 * c.C2

/-- The lane mix for `k2` (R73). -/
def mixk2 (c : MixConst) (k : Word) : Word := rotl64 (k * c.C2) c.R_K2 * c.C1

/-- The block round (R74): the `h1` half is finished first, and the `h2` half adds the new `h1`. -/
def blockRound (c : MixConst) (h1 h2 k1 k2 : Word) : Word × Word :=
  let h1' := (rotl64 (h1 ^^^ mixk1 c k1) c.R_H1 + h2) * c.MUL_H + c.A_H1
  let h2' := (rotl64 (h2 ^^^ mixk2 c k2) c.R_H2 + h1') * c.MUL_H + c.A_H2
  (h1', h2')

/-- The `k1` lane of a tail: tail bytes 0 to 7 at shifts 0 to 56 (R75). -/
def tailLane1 (t : List Byte) : Word := le64 (t.take 8)

/-- The `k2` lane of a tail: tail bytes 8 to 14 at shifts 0 to 48 (R75). -/
def tailLane2 (t : List Byte) : Word := le64 (t.drop 8)

/-- The folds of the tail (R75), given its length `r` and its two lanes. -/
def tailFold (c : MixConst) (r : Nat) (h1 h2 k1 k2 : Word) : Word × Word :=
  (if 1 ≤ r then h1 ^^^ mixk1 c k1 else h1, if 9 ≤ r then h2 ^^^ mixk2 c k2 else h2)

/-- The avalanche finisher (R76). -/
def fmix64 (c : MixConst) (k : Word) : Word :=
  let k := (k ^^^ (k >>> c.FMIX_SHIFT)) * c.FMIX_M1
  let k := (k ^^^ (k >>> c.FMIX_SHIFT)) * c.FMIX_M2
  k ^^^ (k >>> c.FMIX_SHIFT)

/-- The finalisation (R77). Both cross-adds are sequential: the second statement uses the new `h1`. -/
def finalMix (c : MixConst) (h1 h2 len : Word) : Word × Word :=
  let h1 := h1 ^^^ len
  let h2 := h2 ^^^ len
  let h1 := h1 + h2
  let h2 := h2 + h1
  let h1 := fmix64 c h1
  let h2 := fmix64 c h2
  let h1 := h1 + h2
  let h2 := h2 + h1
  (h1, h2)

/-- The output byte reversal (R78): each word on its own, the words not exchanged. -/
def swapOut (swap : Bool) (p : Word × Word) : Word × Word :=
  if swap then (bswap64 p.1, bswap64 p.2) else p

/-- `LEN` of a key: `KLEN` as a 64-bit word (R71). -/
def keyLen (key : Key) : Word := BitVec.ofNat 64 key.length

/-- The tail's bytes: the last `LEN mod 16` bytes of the key (R75, R79). -/
def tailBytes (key : Key) : List Byte :=
  (key.drop (16 * ((keyLen key).toNat / 16))).take ((keyLen key).toNat % 16)

/-- The accumulators after all full blocks, taken in increasing offset order (R79). -/
def mixBlocks (c : MixConst) (key : Key) (h : Word × Word) : Word × Word :=
  (List.range ((keyLen key).toNat / 16)).foldl
    (fun h b => blockRound c h.1 h.2 (memRead64 key (16 * b)) (memRead64 key (16 * b + 8))) h

/-- The whole function `mh3(KEY, KLEN, seed, SWAP)` (R79): a function of the key, the seed and the flag. -/
def mh3 (c : MixConst) (key : Key) (seed : Word32) (swap : Bool) : Word × Word :=
  let t := tailBytes key
  let h := mixBlocks c key (zext64 seed, zext64 seed)
  let h := tailFold c t.length h.1 h.2 (tailLane1 t) (tailLane2 t)
  swapOut swap (finalMix c h.1 h.2 (keyLen key))

/-- Registers: initialisation (R71). -/
def startHash (key : Key) (seed : Word32) (w : Work) : Work :=
  { w with LEN := keyLen key, H1 := zext64 seed, H2 := zext64 seed }

/-- Registers: block `b` is loaded into `K1`, `K2` and folded into `H1`, `H2` (R79, R74). -/
def blockStep (c : MixConst) (key : Key) (w : Work) (b : Nat) : Work :=
  let w := { w with K1 := memRead64 key (16 * b), K2 := memRead64 key (16 * b + 8) }
  let h := blockRound c w.H1 w.H2 w.K1 w.K2
  { w with H1 := h.1, H2 := h.2 }

/-- Registers: the tail's bytes are loaded into `K1`, `K2` and folded (R75). -/
def tailStep (c : MixConst) (t : List Byte) (w : Work) : Work :=
  let w := { w with K1 := tailLane1 t, K2 := tailLane2 t }
  let h := tailFold c t.length w.H1 w.H2 w.K1 w.K2
  { w with H1 := h.1, H2 := h.2 }

/-- Registers: the finalisation with `LEN`, and the output byte reversal (R77, R78). -/
def finishStep (c : MixConst) (swap : Bool) (w : Work) : Work :=
  let h := swapOut swap (finalMix c w.H1 w.H2 w.LEN)
  { w with H1 := h.1, H2 := h.2 }

/-- The mixer as the engine runs it: the result stands in `H1`, `H2` (R79). -/
def runMixer (c : MixConst) (key : Key) (seed : Word32) (swap : Bool) (w : Work) : Work :=
  let w := startHash key seed w
  let nblocks := w.LEN.toNat / 16
  let w := (List.range nblocks).foldl (blockStep c key) w
  let w := tailStep c ((key.drop (16 * nblocks)).take (w.LEN.toNat % 16)) w
  finishStep c swap w

end Sys2Proof.Machine
end

