-- ==== Sys2Proof/Machine/HashCommand.lean ====
section
/-! DEFINITION. The command HASH, with HASH.S (spec/40_mixing_hash.md R80). -/

namespace Sys2Proof.Machine

/-- HASH (R80): works in every state, configured or not, and writes none of `M`, `K`, `BITS`. -/
def execHash (swap : Bool) (seed : Word32) (key : Key) (s : State) : Host.Outcome State Fault Refusal :=
  let w := runMixer mixConst key seed swap s.work
  .next (respond (.pair w.H1 w.H2) s)

end Sys2Proof.Machine
end

