-- ==== Sys2Proof/Machine/Flags.lean ====
section
/-! DEFINITION. The engine has no flags (spec/10_state.md R19). The one condition it computes is the Boolean
accumulator `ACC` of the probe loops, an OR for ADD and an AND for EXISTS (R16). -/

namespace Sys2Proof.Machine

/-- `ACC <- ACC OR (BITS[IDX] = false)`: was this bit clear before this probe? (R113) -/
def accWasClear (acc bit : Bool) : Bool := acc || !bit

/-- `ACC <- ACC AND BITS[IDX]` (R114). -/
def accAllSet (acc bit : Bool) : Bool := acc && bit

end Sys2Proof.Machine
end

