-- ==== Sys2Proof/Machine/Probe.lean ====
section
/-! DEFINITION. The probe engine (spec/42_filter_commands.md R110) and the two commands that drive it with a given
hash pair: ADDH (R113) and EXISTSH (R114). -/

namespace Sys2Proof.Machine

/-- The end of a probe: `H1` walks on by `H2`, wrapping, and the counter counts (R110). -/
def walk (w : Work) : Work := { w with H1 := w.H1 + w.H2, I := w.I + 1 }

/-- One probe of ADD: the index, the test of the old bit, then the set, then the walk (R113, R36). -/
def addProbe (M : Word) (x : Work × Memory) : Work × Memory :=
  let idx := umod x.1.H1 M
  let w := { x.1 with IDX := idx, ACC := accWasClear x.1.ACC (x.2.read idx.toNat) }
  (walk w, x.2.write idx.toNat true)

/-- `n` probes of ADD, one after another. -/
def addLoop (M : Word) : Nat → Work × Memory → Work × Memory
  | 0, x => x
  | n + 1, x => addLoop M n (addProbe M x)

/-- One probe of EXISTS: the index, the test, then the walk (R114). -/
def testProbe (M : Word) (b : Memory) (w : Work) : Work :=
  let idx := umod w.H1 M
  walk { w with IDX := idx, ACC := accAllSet w.ACC (b.read idx.toNat) }

/-- `n` probes of EXISTS, one after another: the full loop (R114). -/
def testLoop (M : Word) (b : Memory) : Nat → Work → Work
  | 0, w => w
  | n + 1, w => testLoop M b n (testProbe M b w)

/-- The pair is put into `H1`, `H2` (R113, R114). -/
def loadPair (h1 h2 : Word) (w : Work) : Work := { w with H1 := h1, H2 := h2 }

/-- ADD from "H1 <- h1" on (R113, R115), with the pair already in the working registers `w`. -/
def addPair (w : Work) (s : State) : Host.Outcome State Fault Refusal :=
  let x := addLoop s.M (probeCount s.K) ({ w with I := 0, ACC := false }, s.BITS)
  whenDivisible s (.next (respond (.bool x.1.ACC) { s with BITS := x.2 }))

/-- EXISTS from "H1 <- h1" on (R114, R116), with the pair already in the working registers `w`. -/
def testPair (w : Work) (s : State) : Host.Outcome State Fault Refusal :=
  let v := testLoop s.M s.BITS (probeCount s.K) { w with I := 0, ACC := true }
  whenDivisible s (.next (respond (.bool v.ACC) s))

/-- ADDH (R113). -/
def execAddh (h1 h2 : Word) (s : State) : Host.Outcome State Fault Refusal :=
  whenConfigured s (addPair (loadPair h1 h2 s.work) s)

/-- EXISTSH (R114). -/
def execExistsh (h1 h2 : Word) (s : State) : Host.Outcome State Fault Refusal :=
  whenConfigured s (testPair (loadPair h1 h2 s.work) s)

end Sys2Proof.Machine
end

