-- ==== Sys2Proof/Machine/Keyed.lean ====
section
/-! DEFINITION. The filter commands on a key (spec/42_filter_commands.md R115, R116): ADD and EXISTS, which hash the
key with the built-in seed 4011 and hand the pair to the probe engine unchanged (R14). -/

namespace Sys2Proof.Machine

/-- The built-in hash of a key: seed `DEFAULT_SEED`, SWAP = 0 (R115, R116). -/
def hashKey (key : Key) (w : Work) : Work := runMixer mixConst key mixConst.DEFAULT_SEED false w

/-- ADD (R115): `K = 0` is tested before any hashing. -/
def execAdd (key : Key) (s : State) : Host.Outcome State Fault Refusal :=
  whenConfigured s (addPair (hashKey key s.work) s)

/-- EXISTS (R116). -/
def execExists (key : Key) (s : State) : Host.Outcome State Fault Refusal :=
  whenConfigured s (testPair (hashKey key s.work) s)

end Sys2Proof.Machine
end

