-- ==== Sys2Proof/Machine/Dispatch.lean ====
section
/-! DEFINITION. exec: one arm per command (spec/30_encoding.md R50), each a direct call of its meaning. -/

namespace Sys2Proof.Machine

def exec (i : Instr) (s : State) : Host.Outcome State Fault Refusal :=
  match i with
  | .config size numHashes => Sys2Proof.Machine.execConfig size numHashes s
  | .clear => Sys2Proof.Machine.execClear s
  | .hash swap seed key => Sys2Proof.Machine.execHash swap seed key s
  | .add key => Sys2Proof.Machine.execAdd key s
  | .existsKey key => Sys2Proof.Machine.execExists key s
  | .addh h1 h2 => Sys2Proof.Machine.execAddh h1 h2 s
  | .existsh h1 h2 => Sys2Proof.Machine.execExistsh h1 h2 s

end Sys2Proof.Machine
end

