-- ==== Sys2Proof/Machine/Port.lean ====
section
/-! DEFINITION. The command port: what one host event does to the engine (spec/30_encoding.md R51, R56;
spec/60_exceptions.md R143, R145; spec/70_reset_and_hazards.md R160, R168), and the response packets (R59). -/

namespace Sys2Proof.Machine

/-- The code numbers (R141 to R144). -/
def ErrorCode.number : ErrorCode → Byte
  | .invalidConfiguration => 1
  | .illegalCommand => 2
  | .notConfigured => 3
  | .capacityExceeded => 4

/-- The response packet (R59). -/
def Response.encode : Response → Packet
  | .ok => [0x00]
  | .bool b => [0x01, if b then 0x01 else 0x00]
  | .pair h1 h2 => 0x02 :: (bytes64 h1 ++ bytes64 h2)
  | .err code => [0xff, code.number]

/-- The bytes the engine has sent to the host, packet by packet (R51, R59). -/
def State.sentPackets (s : State) : List Packet := s.responses.map Response.encode

/-- Another state follows after the event: the host's position moves on (R20). -/
def advanceNext : Host.Outcome State Fault Refusal → Host.Outcome State Fault Refusal
  | .next t => .next t.advance
  | .fault r => .fault r
  | .refused r => .refused r

/-- One packet: an illegal one is answered `ERR(IllegalCommand)` before anything else is looked at (R143, R145);
a well-formed one runs its command. -/
def runPacket (p : Packet) (s : State) : Host.Outcome State Fault Refusal :=
  match decode p with
  | .error _ => .next (raise .illegalCommand s)
  | .ok i => exec i s

/-- One host event (R168). Power-on reset has no response. -/
def runEvent (e : HostEvent) (s : State) : Host.Outcome State Fault Refusal :=
  match e with
  | .packet p => runPacket p s
  | .powerOn => .next (powerOnReset s)

/-- The engine acts only on what the host does (R146); when the program is over (R20) it is idle (R151, log 7). -/
def runNext (s : State) : Host.Outcome State Fault Refusal :=
  match s.fetch with
  | none => .next s
  | some e => advanceNext (runEvent e s)

end Sys2Proof.Machine
end

