-- ==== Sys2Proof/Machine/Step.lean ====
section
/-! DEFINITION. One step: one host event, whole (spec/10_state.md R20, spec/20_memory.md R36). -/

namespace Sys2Proof.Machine

/-- One step of the machine. -/
def step (s : State) : Host.Outcome State Fault Refusal := runNext s

/-- `s` with the table word's packet as the event that `step` fetches next (log 7, log 9). -/
def State.withFetchWord (s : State) (nbits w : Nat) : State :=
  s.placeNext (.packet (tablePacket nbits w))

end Sys2Proof.Machine
end

