-- ==== Sys2Proof/Safety.lean ====
section
/-! DEFINITION. The terms the claims use: the invariant of spec/10_state.md R18, the closed form of the probe indices
(spec/42_filter_commands.md R110), what leaves a filter alone (R117), what a legal packet is (spec/30_encoding.md
R55), the tail and the whole hash as the spec's loops read (spec/40_mixing_hash.md R75, R79), and what a run
without a reported error is (spec/60_exceptions.md R140). -/

namespace Sys2Proof.Machine

/-- R18 (a) and (b), the parameter's range (R4), and the host's position within its program (R20).
While the engine is unconfigured `M` is 0 (R11, R22), so that `BITS` then has no elements (R13). -/
abbrev State.Inv (s : State) : Prop :=
  (s.K = 0 ∧ s.M = 0 ∨ 1 ≤ s.K.toInt ∧ 1 ≤ s.M.toNat ∧ s.M.toNat ≤ s.mMax.toNat) ∧
  Memory.wf s.M.toNat s.BITS ∧
  1 ≤ s.mMax.toNat ∧
  s.index ≤ s.program.length

/-- The filter, all that persists between commands (R10), is the same in both states. -/
abbrev SameFilter (s t : State) : Prop := t.M = s.M ∧ t.K = s.K ∧ t.BITS = s.BITS

/-- From `s` to `t` the host got exactly one more response, `r`, and nothing else of the host's side, nor the
parameter `M_MAX`, changed. -/
abbrev Answered (s t : State) (r : Response) : Prop :=
  t.responses = s.responses ++ [r] ∧ t.mMax = s.mMax ∧ t.program = s.program ∧ t.index = s.index

/-- The `i`-th probe index in closed form, over the natural numbers: first modulo `2^64`, then modulo `M`
(R110 (c)). -/
def probeIndex (h1 h2 M : Word) (i : Nat) : Nat := ((h1.toNat + i * h2.toNat) % 2 ^ 64) % M.toNat

/-- The `K` probe indices of a pair, in probe order (R110). -/
def probeIndices (h1 h2 M : Word) (K : Word32) : List Nat :=
  (List.range K.toInt.toNat).map (probeIndex h1 h2 M)

/-- `n` steps, stopping at the first fault or refusal. -/
def runSteps : Nat → State → Host.Outcome State Fault Refusal
  | 0, s => .next s
  | n + 1, s =>
    match step s with
    | .next t => runSteps n t
    | .fault r => .fault r
    | .refused r => .refused r

/-- Not CLEAR and not a CONFIG that succeeds on an engine with capacity `mMax` (R117, R18 (d)). -/
def keepsFilter (mMax : Word) : Instr → Bool
  | .config size numHashes => decide (size = 0 ∨ numHashes.toInt ≤ 0 ∨ mMax < size)
  | .clear => false
  | .hash _ _ _ => true
  | .add _ => true
  | .existsKey _ => true
  | .addh _ _ => true
  | .existsh _ _ => true

/-- A host event that is not power-on reset, nor a packet that clears or replaces the filter (R117). -/
def eventKeepsFilter (mMax : Word) : HostEvent → Bool
  | .powerOn => false
  | .packet p =>
    match decode p with
    | .error _ => true
    | .ok i => keepsFilter mMax i

/-- `a` adds what `e` asks for: ADD and EXISTS of equal keys, or ADDH and EXISTSH of the same pair (R117). -/
abbrev AddsWhatExists (a e : Instr) : Prop :=
  (∃ key, key.length < 2 ^ 64 ∧ a = .add key ∧ e = .existsKey key) ∨
  (∃ h1 h2, a = .addh h1 h2 ∧ e = .existsh h1 h2)

/-- CLEAR, ADD, EXISTS, ADDH and EXISTSH: the commands that need a configured engine (R142). -/
def needsConfig : Instr → Bool
  | .config _ _ => false
  | .clear => true
  | .hash _ _ _ => false
  | .add _ => true
  | .existsKey _ => true
  | .addh _ _ => true
  | .existsh _ _ => true

/-- ADD, EXISTS, ADDH and EXISTSH: the commands that probe (R38). -/
def probes : Instr → Bool
  | .config _ _ => false
  | .clear => false
  | .hash _ _ _ => false
  | .add _ => true
  | .existsKey _ => true
  | .addh _ _ => true
  | .existsh _ _ => true

/-- A well-formed packet, by R52's list of opcode bytes and R55's lengths. -/
def legalPacket : Packet → Bool
  | [] => false
  | b :: rest =>
    let p := b :: rest
    let fs := decide (13 ≤ p.length ∧ p.length = 13 + leNat ((p.drop 5).take 8))
    let fk := decide (9 ≤ p.length ∧ p.length = 9 + leNat ((p.drop 1).take 8))
    match b.toNat with
    | 0x01 => decide (p.length = 13)
    | 0x02 => decide (p.length = 1)
    | 0x10 => fs
    | 0x11 => fs
    | 0x20 => fk
    | 0x21 => fk
    | 0x30 => decide (p.length = 17)
    | 0x31 => decide (p.length = 17)
    | _ => false

/-- The value R53 gives a field of bytes `f0, f1, ...`: `f0 + f1*2^8 + ... + f(n-1)*2^(8(n-1))`. -/
def fieldValue (f : List Byte) : Nat :=
  ((List.range f.length).map (fun j => (f.getD j 0).toNat * 2 ^ (8 * j))).sum

/-- A `BOOL` response. -/
def Response.isBool : Response → Bool
  | .ok => false
  | .bool _ => true
  | .pair _ _ => false
  | .err _ => false

/-- A `PAIR` response. -/
def Response.isPair : Response → Bool
  | .ok => false
  | .bool _ => false
  | .pair _ _ => true
  | .err _ => false

/-- The table of R150: which command can produce which response, on an engine with capacity `mMax`. -/
def tableAllows (mMax : Word) (i : Instr) (r : Response) : Bool :=
  match i with
  | .config _ _ =>
    r == .ok || r == .err .invalidConfiguration || (r == .err .capacityExceeded && mMax != Config.mMaxDefault)
  | .clear => r == .ok || r == .err .notConfigured
  | .hash _ _ _ => r.isPair
  | .add _ => r.isBool || r == .err .notConfigured
  | .existsKey _ => r.isBool || r == .err .notConfigured
  | .addh _ _ => r.isBool || r == .err .notConfigured
  | .existsh _ _ => r.isBool || r == .err .notConfigured

/-- `zext_64(t[j])` of R75's tail loops. -/
def tailByte (t : List Byte) (j : Nat) : Word := (t.getD j 0).setWidth 64

/-- The tail as R75's pseudocode has it: two loops of exclusive ors of shifted bytes, then the two folds. -/
def tailBySpec (c : MixConst) (h1 h2 : Word) (t : List Byte) : Word × Word :=
  let k1 := (List.range' 0 (min t.length 8)).foldl (fun k j => k ^^^ (tailByte t j <<< (8 * j))) 0
  let k2 := (List.range' 8 (t.length - 8)).foldl (fun k j => k ^^^ (tailByte t j <<< (8 * (j - 8)))) 0
  let h2 := if t.length ≥ 9 then h2 ^^^ mixk2 c k2 else h2
  let h1 := if t.length ≥ 1 then h1 ^^^ mixk1 c k1 else h1
  (h1, h2)

/-- `n` full blocks and the tail taken off the front of what is left of the key: every byte once, in increasing
offset order (R33). -/
def absorb (c : MixConst) : Nat → List Byte → Word × Word → Word × Word
  | 0, rest, h => tailBySpec c h.1 h.2 rest
  | n + 1, rest, h =>
    absorb c n (rest.drop 16) (blockRound c h.1 h.2 (le64 (rest.take 8)) (le64 ((rest.drop 8).take 8)))

/-- The hash of a key read as a stream. -/
def streamHash (c : MixConst) (key : Key) (seed : Word32) (swap : Bool) : Word × Word :=
  let h := absorb c (key.length / 16) key (zext64 seed, zext64 seed)
  swapOut swap (finalMix c h.1 h.2 (BitVec.ofNat 64 key.length))

/-- A response that is no error. -/
def Response.isError : Response → Bool
  | .ok => false
  | .bool _ => false
  | .pair _ _ => false
  | .err _ => true

/-- The host's sticky mark (R140): no response so far was an error. -/
def State.noErrorReported (s : State) : Bool := s.responses.all (fun r => !r.isError)

/-- A key for which agreement with the original program is claimed, given the parameter `KLEN_TRUSTED`, which R4 leaves
open as an argument of the model (R33, log 8). -/
def Key.trusted (klenTrusted : Nat) (key : Key) : Bool := decide (key.length ≤ klenTrusted)

/-- A command without a key, or with a trusted one: what a cautious claim is about (R33, log 8). -/
def Instr.trusted (klenTrusted : Nat) : Instr → Bool
  | .config _ _ => true
  | .clear => true
  | .hash _ _ key => Key.trusted klenTrusted key
  | .add key => Key.trusted klenTrusted key
  | .existsKey key => Key.trusted klenTrusted key
  | .addh _ _ => true
  | .existsh _ _ => true

end Sys2Proof.Machine
end

