-- ==== Sys2Proof/Certificates/Slice0/Obligations.lean ====
section
/-! DEFINITION. The statements for the provers. Each docstring names the rules of spec/ that it formalises. -/

open Sys2Proof Sys2Proof.Machine

/-! ### Encoding -/

/-- R52 to R55: every command some packet can carry is decoded from its own packet, with every operand. -/
def Obligations.DecodeOfEncodeIsTheCommand : Prop :=
  ∀ i : Instr, i.wellFormed = true → decode (encode i) = .ok i

/-- R52 to R55: a packet that decodes is the one packet of its command; no two packets mean the same. -/
def Obligations.EncodeOfDecodeIsThePacket : Prop :=
  ∀ (p : Packet) (i : Instr), decode p = .ok i → i.wellFormed = true ∧ encode i = p

/-- R55, R56: the decoder accepts a packet exactly when byte 0 is one of the eight defined opcodes and the length is
the one R55 gives it. -/
def Obligations.DecodeAcceptsExactlyLegalPackets : Prop :=
  ∀ p : Packet, (∃ i, decode p = .ok i) ↔ legalPacket p = true

/-- R53: every multi-byte operand is little-endian; `num_hashes` is two's complement; the seed is zero-extended; the
key bytes are the packet's, in packet order. -/
def Obligations.OperandFieldsAreLittleEndian : Prop :=
  (∀ f g : List Byte, f.length = 8 → g.length = 4 →
    ∃ size n, decode (0x01 :: (f ++ g)) = .ok (.config size n) ∧ size.toNat = fieldValue f ∧
      n.toInt = if fieldValue g < 2 ^ 31 then (fieldValue g : Int) else (fieldValue g : Int) - 2 ^ 32) ∧
  (∀ f g : List Byte, f.length = 8 → g.length = 8 →
    ∃ h1 h2, decode (0x30 :: (f ++ g)) = .ok (.addh h1 h2) ∧ decode (0x31 :: (f ++ g)) = .ok (.existsh h1 h2) ∧
      h1.toNat = fieldValue f ∧ h2.toNat = fieldValue g) ∧
  (∀ f g key : List Byte, f.length = 4 → g.length = 8 → fieldValue g = key.length →
    ∃ seed, decode (0x10 :: (f ++ (g ++ key))) = .ok (.hash false seed key) ∧
      decode (0x11 :: (f ++ (g ++ key))) = .ok (.hash true seed key) ∧
      seed.toNat = fieldValue f ∧ (zext64 seed).toNat = fieldValue f) ∧
  (∀ g key : List Byte, g.length = 8 → fieldValue g = key.length →
    decode (0x20 :: (g ++ key)) = .ok (.add key) ∧ decode (0x21 :: (g ++ key)) = .ok (.existsKey key))

/-- The packets of spec/95_test_vectors.md V11, byte by byte, decode to the commands they stand for. -/
def Obligations.SamplePacketsDecode : Prop :=
  decode [0x01, 0xbf, 0x03, 0, 0, 0, 0, 0, 0, 0x07, 0, 0, 0] = .ok (.config 959 7) ∧
  decode [0x02] = .ok .clear ∧
  decode [0x10, 0xab, 0x0f, 0, 0, 5, 0, 0, 0, 0, 0, 0, 0, 0x68, 0x65, 0x6c, 0x6c, 0x6f] =
    .ok (.hash false 4011 [0x68, 0x65, 0x6c, 0x6c, 0x6f]) ∧
  decode [0x11, 0xab, 0x0f, 0, 0, 5, 0, 0, 0, 0, 0, 0, 0, 0x68, 0x65, 0x6c, 0x6c, 0x6f] =
    .ok (.hash true 4011 [0x68, 0x65, 0x6c, 0x6c, 0x6f]) ∧
  decode [0x20, 0, 0, 0, 0, 0, 0, 0, 0] = .ok (.add []) ∧
  decode [0x21, 3, 0, 0, 0, 0, 0, 0, 0, 0x43, 0x2b, 0x2b] = .ok (.existsKey [0x43, 0x2b, 0x2b]) ∧
  decode [0x30, 3, 0, 0, 0, 0, 0, 0, 0, 1, 0, 0, 0, 0, 0, 0, 0] = .ok (.addh 3 1) ∧
  decode [0x31, 0xff, 0xff, 0xff, 0xff, 0xff, 0xff, 0xff, 0xff, 2, 0, 0, 0, 0, 0, 0, 0] =
    .ok (.existsh 0xffffffffffffffff 2)

/-- R59: the response packets, field by field; with SWAP each word's bytes are those of the unswapped word, most
significant first; different responses have different packets. -/
def Obligations.ResponsePacketsCarryTheResponse : Prop :=
  Response.encode .ok = [0x00] ∧
  (∀ b, Response.encode (.bool b) = [0x01, if b then 0x01 else 0x00]) ∧
  (∀ h1 h2, ∃ f g, Response.encode (.pair h1 h2) = 0x02 :: (f ++ g) ∧ f.length = 8 ∧ g.length = 8 ∧
    fieldValue f = h1.toNat ∧ fieldValue g = h2.toNat) ∧
  (∀ h1 h2, Response.encode (.pair (bswap64 h1) (bswap64 h2)) =
    0x02 :: ((bytes64 h1).reverse ++ (bytes64 h2).reverse)) ∧
  Response.encode (.err .invalidConfiguration) = [0xff, 1] ∧
  Response.encode (.err .illegalCommand) = [0xff, 2] ∧
  Response.encode (.err .notConfigured) = [0xff, 3] ∧
  Response.encode (.err .capacityExceeded) = [0xff, 4] ∧
  (∀ r r' : Response, r.encode = r'.encode → r = r')

/-! ### The step and the port -/

/-- A step at a packet that decodes is `exec` of its command, after which the host's position moves on by 1; it faults
where the command faults. (No command is refused: OnlyAMissingModulusFaults.) -/
def Obligations.StepRunsTheDecodedCommand : Prop :=
  ∀ (s : State) (p : Packet) (i : Instr), s.program[s.index]? = some (.packet p) → decode p = .ok i →
    (∀ t, exec i s = .next t → step s = .next { t with index := t.index + 1 }) ∧
    (∀ r, exec i s = .fault r → step s = .fault r)

/-- R143, R56: an illegal packet is answered `ERR(IllegalCommand)`, code 2, in every state, and changes nothing of
the filter. -/
def Obligations.IllegalPacketIsAnsweredIllegalCommand : Prop :=
  ∀ (s : State) (p : Packet), s.program[s.index]? = some (.packet p) → legalPacket p = false →
    ∃ t, step s = .next t ∧ t.responses = s.responses ++ [.err .illegalCommand] ∧ SameFilter s t ∧
      t.mMax = s.mMax ∧ t.program = s.program ∧ t.index = s.index + 1

/-- R145: the order of the checks, for one packet in any state. -/
def Obligations.ChecksAreMadeInOrder : Prop :=
  ∀ (s : State) (p : Packet), s.program[s.index]? = some (.packet p) →
    (legalPacket p = false → ∃ t, step s = .next t ∧ t.responses = s.responses ++ [.err .illegalCommand]) ∧
    (∀ size n, decode p = .ok (.config size n) → size = 0 ∨ n.toInt ≤ 0 →
      ∃ t, step s = .next t ∧ t.responses = s.responses ++ [.err .invalidConfiguration]) ∧
    (∀ size n, decode p = .ok (.config size n) → size ≠ 0 → 0 < n.toInt → s.mMax.toNat < size.toNat →
      ∃ t, step s = .next t ∧ t.responses = s.responses ++ [.err .capacityExceeded]) ∧
    (∀ i, decode p = .ok i → needsConfig i = true → s.K = 0 →
      ∃ t, step s = .next t ∧ t.responses = s.responses ++ [.err .notConfigured])

/-- R161, R22: what the spec says of the state after power-on reset. The working registers, of which it says only
that they are unspecified, are not named. -/
def Obligations.ResetStateIsUnconfigured : Prop :=
  State.reset.K = 0 ∧ State.reset.M = 0 ∧ ∀ idx, State.reset.BITS.read idx = false

/-- R160, R161: power-on reset in the middle of a run, from any state. That it is an event of the host's program, with no
response and after which the host's position moves on by 1, is the model's choice (log 11). -/
def Obligations.PowerOnResetUnconfigures : Prop :=
  ∀ s : State, s.program[s.index]? = some .powerOn →
    ∃ t, step s = .next t ∧ t.K = 0 ∧ t.M = 0 ∧ (∀ idx, t.BITS.read idx = false) ∧
      t.responses = s.responses ∧ t.mMax = s.mMax ∧ t.program = s.program ∧ t.index = s.index + 1

/-- R20, R146: when the program is over the engine does nothing. That the step then answers the same state, and does
not stop, is the model's choice (log 7). -/
def Obligations.EngineIsIdleWhenTheProgramIsOver : Prop :=
  ∀ s : State, s.program.length ≤ s.index → step s = .next s

/-- R20: the host's position advances by exactly 1 after every command packet, whatever the response. R20 speaks of
commands only: that a power-on reset stands in the program too, and moves the position on by 1, is the model's choice
(log 11). -/
def Obligations.ProgramIndexAdvancesByOne : Prop :=
  ∀ s : State, s.Inv → s.index < s.program.length →
    ∃ t, step s = .next t ∧ t.index = s.index + 1 ∧ t.program = s.program

/-- R51, R58: every packet, legal or not, gets exactly one response, and its packet goes to the host. -/
def Obligations.EveryPacketGetsOneResponse : Prop :=
  ∀ (s : State) (p : Packet), s.Inv → s.program[s.index]? = some (.packet p) →
    ∃ t r, step s = .next t ∧ t.responses = s.responses ++ [r] ∧
      t.sentPackets = s.sentPackets ++ [r.encode]

/-! ### Invariants and whole-machine rules -/

/-- R18: the invariant holds after power-on reset. -/
def Obligations.ResetSatisfiesTheInvariant : Prop := State.reset.Inv

/-- R18 (a), (b): every step keeps the invariant, from every state that has it. The steps at a power-on reset and at the
end of the program are as the model's choices have them (log 11, log 7). -/
def Obligations.StepKeepsTheInvariant : Prop :=
  ∀ s t : State, s.Inv → step s = .next t → t.Inv

/-- R150, R167, R38: from a state with the invariant no command packet stops the machine. That a step at a power-on reset
in the program answers a state is the model's choice (log 11), and so it is that a step at the end of the program
does (log 7). -/
def Obligations.StepNeverStops : Prop :=
  ∀ s : State, s.Inv → ∃ t, step s = .next t

/-- R38: a command faults exactly when it would divide by zero, which no state with the invariant allows; none is
refused. The fault itself is the model's choice (log 5). -/
def Obligations.OnlyAMissingModulusFaults : Prop :=
  ∀ (i : Instr) (s : State),
    (exec i s = .fault .umodByZero ↔ probes i = true ∧ 1 ≤ s.K.toInt ∧ s.M = 0) ∧ ∀ r, exec i s ≠ .refused r

/-- R18 (d): no command but CLEAR and a CONFIG that succeeds takes a bit from true to false. -/
def Obligations.OnlyClearAndConfigClearBits : Prop :=
  ∀ (i : Instr) (s t : State), exec i s = .next t → keepsFilter s.mMax i = true →
    ∀ idx, s.BITS.read idx = true → t.BITS.read idx = true

/-- R11, R12, R18 (c): `M` and `K` are written by a CONFIG that succeeds, which sets them to its operands, and by no
other command. -/
def Obligations.OnlySuccessfulConfigWritesMAndK : Prop :=
  ∀ (i : Instr) (s t : State), exec i s = .next t →
    t.M = s.M ∧ t.K = s.K ∨
    ∃ size n, i = .config size n ∧ size ≠ 0 ∧ 0 < n.toInt ∧ size.toNat ≤ s.mMax.toNat ∧ t.M = size ∧ t.K = n

/-- R17: no command takes a configured engine back to unconfigured, and out of the unconfigured state leads only a
CONFIG that answers `OK`. -/
def Obligations.ConfiguredEngineStaysConfigured : Prop :=
  ∀ (i : Instr) (s t : State), exec i s = .next t →
    (1 ≤ s.K.toInt → 1 ≤ t.K.toInt) ∧
    (s.K = 0 → t.K ≠ 0 → (∃ size n, i = .config size n) ∧ t.responses = s.responses ++ [.ok])

/-- R140: a command that answers an error leaves the filter, and everything else but the working registers, as it
was; the engine is ready, and the error is not latched: every command answers afterwards as it would have answered
before. -/
def Obligations.ErrorLeavesTheFilterUnchanged : Prop :=
  ∀ (i : Instr) (s t : State) (e : ErrorCode), exec i s = .next t → t.responses = s.responses ++ [.err e] →
    SameFilter s t ∧ t.mMax = s.mMax ∧ t.program = s.program ∧ t.index = s.index ∧
    ∀ (j : Instr) (s' : State) (r : Response), exec j s = .next s' → s'.responses = s.responses ++ [r] →
      ∃ t', exec j t = .next t' ∧ t'.responses = t.responses ++ [r] ∧ SameFilter s' t'

/-- R150: in a state with the invariant every command answers, with a response of its row of the table; on a
configured engine the five filter commands answer no error. -/
def Obligations.ResponsesFollowTheTable : Prop :=
  ∀ (i : Instr) (s : State), s.Inv →
    ∃ t r, exec i s = .next t ∧ t.responses = s.responses ++ [r] ∧ tableAllows s.mMax i r = true ∧
      (1 ≤ s.K.toInt → needsConfig i = true → r.isError = false)

/-- R10, R23: what a step answers and leaves behind depends on the filter, the parameter and the program alone: not on
the working registers, nor on the responses given so far. The steps at a power-on reset and at the end of the program
are as the model's choices have them (log 11, log 7), and the fault in both is log 5's. -/
def Obligations.ResponsesDependOnlyOnTheFilter : Prop :=
  ∀ s t : State, SameFilter s t → t.mMax = s.mMax → t.program = s.program → t.index = s.index →
    (step s = .fault .umodByZero ∧ step t = .fault .umodByZero) ∨
    ∃ s' t' new, step s = .next s' ∧ step t = .next t' ∧ SameFilter s' t' ∧ t'.mMax = s'.mMax ∧
      t'.program = s'.program ∧ t'.index = s'.index ∧
      s'.responses = s.responses ++ new ∧ t'.responses = t.responses ++ new

/-! ### CONFIG and CLEAR -/

/-- R111: CONFIG, its two errors and its success. -/
def Obligations.ConfigInstallsAFreshFilter : Prop :=
  ∀ (size : Word) (n : Word32) (s : State),
    (size = 0 ∨ n.toInt ≤ 0 →
      ∃ t, exec (.config size n) s = .next t ∧ Answered s t (.err .invalidConfiguration) ∧ SameFilter s t) ∧
    (size ≠ 0 → 0 < n.toInt → s.mMax.toNat < size.toNat →
      ∃ t, exec (.config size n) s = .next t ∧ Answered s t (.err .capacityExceeded) ∧ SameFilter s t) ∧
    (size ≠ 0 → 0 < n.toInt → size.toNat ≤ s.mMax.toNat →
      ∃ t, exec (.config size n) s = .next t ∧ Answered s t .ok ∧ t.M = size ∧ t.K = n ∧
        ∀ idx, t.BITS.read idx = false)

/-- R141: `InvalidConfiguration` is raised by CONFIG and only by CONFIG, exactly on those operands. -/
def Obligations.InvalidConfigurationExactlyOnBadOperands : Prop :=
  ∀ (i : Instr) (s t : State), exec i s = .next t →
    (t.responses = s.responses ++ [.err .invalidConfiguration] ↔
      ∃ size n, i = .config size n ∧ (size = 0 ∨ n.toInt ≤ 0))

/-- R144: `CapacityExceeded` exactly when `size > M_MAX` and the other test has passed; never with the default. -/
def Obligations.CapacityExceededExactlyAboveTheCapacity : Prop :=
  ∀ (i : Instr) (s t : State), exec i s = .next t →
    (t.responses = s.responses ++ [.err .capacityExceeded] ↔
      ∃ size n, i = .config size n ∧ size ≠ 0 ∧ 0 < n.toInt ∧ s.mMax.toNat < size.toNat) ∧
    (s.mMax.toNat = 2 ^ 64 - 1 → t.responses ≠ s.responses ++ [.err .capacityExceeded])

/-- R142: `NotConfigured` exactly for the five filter commands on an engine with `K = 0`, which then change
nothing. -/
def Obligations.NotConfiguredExactlyWhenUnconfigured : Prop :=
  (∀ (i : Instr) (s : State), s.K = 0 → needsConfig i = true →
    ∃ t, exec i s = .next t ∧ Answered s t (.err .notConfigured) ∧ SameFilter s t) ∧
  (∀ (i : Instr) (s t : State), exec i s = .next t → t.responses = s.responses ++ [.err .notConfigured] →
    s.K = 0 ∧ needsConfig i = true)

/-- R112: CLEAR. Every bit becomes false, `M` and `K` stay, and the state is the one that CONFIG with the same `M` and
`K` leads to. Of the architectural state, `M`, `K` and `BITS`, the last is R112's; that the unspecified working
registers and the model's own counter are equal too is the model's choice (log 17). -/
def Obligations.ClearMakesEveryBitFalse : Prop :=
  ∀ s : State,
    (s.K = 0 → ∃ t, exec .clear s = .next t ∧ Answered s t (.err .notConfigured) ∧ SameFilter s t) ∧
    (s.K ≠ 0 → ∃ t, exec .clear s = .next t ∧ Answered s t .ok ∧ t.M = s.M ∧ t.K = s.K ∧
      ∀ idx, t.BITS.read idx = false) ∧
    (s.M ≠ 0 → 0 < s.K.toInt → s.M.toNat ≤ s.mMax.toNat → exec .clear s = exec (.config s.M s.K) s)

/-- R112: clearing the indices `0 .. M-1` one by one leaves the array that CLEAR and CONFIG install at once. -/
def Obligations.ClearLoopEmptiesTheArray : Prop :=
  ∀ (M : Nat) (b : Memory), Memory.wf M b →
    (List.range M).foldl (fun b idx => b.write idx false) b = Memory.allFalse

/-! ### The probe engine -/

/-- R31, R32: a bit write sets that bit, at every index of the array, and leaves every other bit as it was. -/
def Obligations.BitWriteChangesOneBit : Prop :=
  ∀ (b : Memory) (idx : Nat) (v : Bool),
    (b.write idx v).read idx = v ∧ ∀ j, j ≠ idx → (b.write idx v).read j = b.read j

/-- R110, R38: after `n` probes the walk stands at `(h1 + n*h2) mod 2^64`, the step is unchanged, the counter has
counted, and the next index is that value modulo `M`, below `M`; for the loops of ADD and of EXISTS alike. -/
def Obligations.ProbesWalkTheClosedForm : Prop :=
  ∀ (M h1 h2 : Word) (w : Work) (b : Memory) (n : Nat), M ≠ 0 → w.H1 = h1 → w.H2 = h2 → w.I = 0 →
    (let x := addLoop M n (w, b)
     x.1.H1.toNat = (h1.toNat + n * h2.toNat) % 2 ^ 64 ∧ x.1.H2 = h2 ∧ x.1.I.toNat = n % 2 ^ 32 ∧
      (addProbe M x).1.IDX.toNat = probeIndex h1 h2 M n) ∧
    (let v := testLoop M b n w
     v.H1.toNat = (h1.toNat + n * h2.toNat) % 2 ^ 64 ∧ v.H2 = h2 ∧ v.I.toNat = n % 2 ^ 32 ∧
      (testProbe M b v).IDX.toNat = probeIndex h1 h2 M n) ∧
    probeIndex h1 h2 M n < M.toNat

/-- R113: ADDH. The `K` derived bits become true, no other bit changes, and the answer is whether some bit went from
false to true. -/
def Obligations.AddhSetsTheDerivedBits : Prop :=
  ∀ (h1 h2 : Word) (s : State),
    (s.K = 0 → ∃ t, exec (.addh h1 h2) s = .next t ∧ Answered s t (.err .notConfigured) ∧ SameFilter s t) ∧
    (1 ≤ s.K.toInt → s.M ≠ 0 → ∃ t b, exec (.addh h1 h2) s = .next t ∧ Answered s t (.bool b) ∧
      t.M = s.M ∧ t.K = s.K ∧
      (∀ idx, t.BITS.read idx = (s.BITS.read idx || decide (idx ∈ probeIndices h1 h2 s.M s.K))) ∧
      (b = true ↔ ∃ idx, s.BITS.read idx = false ∧ t.BITS.read idx = true))

/-- R114: EXISTSH. The answer is whether all `K` derived bits are true, and nothing is written. -/
def Obligations.ExistshTestsTheDerivedBits : Prop :=
  ∀ (h1 h2 : Word) (s : State),
    (s.K = 0 → ∃ t, exec (.existsh h1 h2) s = .next t ∧ Answered s t (.err .notConfigured) ∧ SameFilter s t) ∧
    (1 ≤ s.K.toInt → s.M ≠ 0 → ∃ t b, exec (.existsh h1 h2) s = .next t ∧ Answered s t (.bool b) ∧
      SameFilter s t ∧ (b = true ↔ ∀ idx ∈ probeIndices h1 h2 s.M s.K, s.BITS.read idx = true))

/-- R115: ADD. As ADDH, with the pair `mh3(KEY, KLEN, 4011, 0)`. -/
def Obligations.AddSetsTheBitsOfTheKey : Prop :=
  ∀ (key : Key) (s : State),
    (s.K = 0 → ∃ t, exec (.add key) s = .next t ∧ Answered s t (.err .notConfigured) ∧ SameFilter s t) ∧
    (1 ≤ s.K.toInt → s.M ≠ 0 → ∃ t b, exec (.add key) s = .next t ∧ Answered s t (.bool b) ∧
      t.M = s.M ∧ t.K = s.K ∧
      (∀ idx, t.BITS.read idx = (s.BITS.read idx || decide (idx ∈
        probeIndices (mh3 mixConst key 4011 false).1 (mh3 mixConst key 4011 false).2 s.M s.K))) ∧
      (b = true ↔ ∃ idx, s.BITS.read idx = false ∧ t.BITS.read idx = true))

/-- R116: EXISTS. As EXISTSH, with the pair `mh3(KEY, KLEN, 4011, 0)`. -/
def Obligations.ExistsTestsTheBitsOfTheKey : Prop :=
  ∀ (key : Key) (s : State),
    (s.K = 0 → ∃ t, exec (.existsKey key) s = .next t ∧ Answered s t (.err .notConfigured) ∧ SameFilter s t) ∧
    (1 ≤ s.K.toInt → s.M ≠ 0 → ∃ t b, exec (.existsKey key) s = .next t ∧ Answered s t (.bool b) ∧
      SameFilter s t ∧
      (b = true ↔ ∀ idx ∈ probeIndices (mh3 mixConst key 4011 false).1 (mh3 mixConst key 4011 false).2 s.M s.K,
        s.BITS.read idx = true))

/-- R57, R115, R116: ADD and EXISTS are ADDH and EXISTSH of the pair that `HASH 4011, key` answers. The rules speak of
effect and response; that the unspecified working registers are equal too is the model's choice (log 17). -/
def Obligations.KeyedCommandsAreHashThenPair : Prop :=
  ∀ (key : Key) (s t : State) (h1 h2 : Word), exec (.hash false 4011 key) s = .next t →
    t.responses = s.responses ++ [.pair h1 h2] →
    exec (.add key) s = exec (.addh h1 h2) s ∧ exec (.existsKey key) s = exec (.existsh h1 h2) s

/-- R114, R116, conflict C6: on an array whose bits are all false every EXISTS and EXISTSH answers false. -/
def Obligations.EmptyFilterHasNothing : Prop :=
  ∀ s : State, 1 ≤ s.K.toInt → s.M ≠ 0 → (∀ idx, s.BITS.read idx = false) →
    (∀ key, ∃ t, exec (.existsKey key) s = .next t ∧ Answered s t (.bool false)) ∧
    (∀ h1 h2, ∃ t, exec (.existsh h1 h2) s = .next t ∧ Answered s t (.bool false))

/-- R117: no false negatives. After an ADD, and any events that do not clear or replace the filter, EXISTS of the same
key answers true; likewise ADDH and EXISTSH. -/
def Obligations.NoFalseNegatives : Prop :=
  ∀ (s : State) (a e : Instr) (between rest : List HostEvent),
    s.Inv → 1 ≤ s.K.toInt → AddsWhatExists a e → between.all (eventKeepsFilter s.mMax) = true →
    s.program.drop s.index = .packet (encode a) :: (between ++ .packet (encode e) :: rest) →
    ∃ u, runSteps (between.length + 2) s = .next u ∧
      u.responses.getLast? = some (.bool true)

/-- R119: a second ADD of the same key (or ADDH of the same pair), with nothing between that clears or replaces the
filter, answers false. -/
def Obligations.SecondAddAnswersFalse : Prop :=
  ∀ (s : State) (a : Instr) (between rest : List HostEvent),
    s.Inv → 1 ≤ s.K.toInt → (∃ e, AddsWhatExists a e) → between.all (eventKeepsFilter s.mMax) = true →
    s.program.drop s.index = .packet (encode a) :: (between ++ .packet (encode a) :: rest) →
    ∃ u, runSteps (between.length + 2) s = .next u ∧ u.responses.getLast? = some (.bool false)

/-- R163: one CONFIG that succeeds is all a host must do: whatever commands other than CONFIG follow it from power-on,
none answers an error. The runs start from `State.reset`, whose `M_MAX` is the default (log 1), so smaller capacities are
not spoken of, and the program is loaded into it from outside the machine (log 7). -/
def Obligations.OneConfigIsAllTheBootNeeded : Prop :=
  ∀ (size : Word) (n : Word32) (cmds : List Instr), size ≠ 0 → 0 < n.toInt →
    (∀ i ∈ cmds, i.wellFormed = true ∧ ∀ size n, i ≠ .config size n) →
    ∃ u, runSteps (cmds.length + 1)
        { State.reset with program := (Instr.config size n :: cmds).map (fun i => .packet (encode i)) } = .next u ∧
      u.index = u.program.length ∧ u.responses.length = cmds.length + 1 ∧ u.noErrorReported = true

/-! ### The hash -/

/-- R80: HASH answers `mh3` of its operands in every state, configured or not, and changes nothing of the filter; of
the empty key it answers the finalisation of the zero-extended seed. -/
def Obligations.HashAnswersMh3InEveryState : Prop :=
  ∀ (swap : Bool) (seed : Word32) (key : Key) (s : State),
    (∃ t, exec (.hash swap seed key) s = .next t ∧
      Answered s t (.pair (mh3 mixConst key seed swap).1 (mh3 mixConst key seed swap).2) ∧ SameFilter s t) ∧
    mh3 mixConst [] seed false = finalMix mixConst (zext64 seed) (zext64 seed) 0

/-- R33, R79: `mh3` is the hash of the key read as a stream, every byte once, in increasing offset order. -/
def Obligations.Mh3ReadsTheKeyAsAStream : Prop :=
  ∀ (c : MixConst) (key : Key) (seed : Word32) (swap : Bool), key.length < 2 ^ 64 →
    mh3 c key seed swap = streamHash c key seed swap

/-- R75: the tail, as the two loops of exclusive ors and the two folds have it; both folds may be applied
unconditionally. -/
def Obligations.TailFollowsThePseudocode : Prop :=
  ∀ (c : MixConst) (h1 h2 : Word) (t : List Byte), t.length ≤ 15 →
    tailFold c t.length h1 h2 (tailLane1 t) (tailLane2 t) = tailBySpec c h1 h2 t ∧
    tailFold c t.length h1 h2 (tailLane1 t) (tailLane2 t) =
      (h1 ^^^ mixk1 c (tailLane1 t), h2 ^^^ mixk2 c (tailLane2 t))

/-- R72, R73, R76: the lane mixes and the finisher, with the constants of R70 (log 6), are bijections on 64-bit words,
and send 0 to 0. -/
def Obligations.LaneMixesAndFinisherAreBijections : Prop :=
  Function.Bijective (mixk1 mixConst) ∧ Function.Bijective (mixk2 mixConst) ∧
  Function.Bijective (fmix64 mixConst) ∧
  mixk1 mixConst 0 = 0 ∧ mixk2 mixConst 0 = 0 ∧ fmix64 mixConst 0 = 0

/-- R6: a rotate moves bit `i` to bit `(i + n) mod 64`. -/
def Obligations.RotateMovesEveryBit : Prop :=
  ∀ (a : Word) (n i : Nat), 1 ≤ n → n ≤ 63 → i < 64 →
    (rotl64 a n).getLsbD ((i + n) % 64) = a.getLsbD i

/-- R78, R6: with SWAP each of the two words is byte-reversed on its own: byte `j` of the one is byte `7 - j` of the
other. -/
def Obligations.SwapReversesEachWord : Prop :=
  (∀ (c : MixConst) (key : Key) (seed : Word32),
    mh3 c key seed true = (bswap64 (mh3 c key seed false).1, bswap64 (mh3 c key seed false).2)) ∧
  ∀ (a : Word) (j : Nat), j < 8 → (bswap64 a).extractLsb' (8 * j) 8 = a.extractLsb' (8 * (7 - j)) 8

/-- Known answers: the three of the public algorithm with seed 0 (spec/95_test_vectors.md V7), and R80's example.
They rest on the constants and orderings of log 6. -/
def Obligations.KnownAnswersOfTheHash : Prop :=
  mh3 mixConst [] 0 false = (0, 0) ∧
  mh3 mixConst [0x68, 0x65, 0x6c, 0x6c, 0x6f] 0 false = (0xcbd8a7b341bd9b02, 0x5b1e906a48ae1d19) ∧
  mh3 mixConst [0x68, 0x65, 0x6c, 0x6c, 0x6f] 4011 false = (0xc3ab0004c7e7f2fa, 0xfd9afdca8ce6984c) ∧
  mh3 mixConst [0x68, 0x65, 0x6c, 0x6c, 0x6f] 4011 true = (0xfaf2e7c70400abc3, 0x4c98e68ccafd9afd) ∧
  mh3 mixConst [0x54, 0x68, 0x65, 0x20, 0x71, 0x75, 0x69, 0x63, 0x6b, 0x20, 0x62, 0x72, 0x6f, 0x77, 0x6e, 0x20,
    0x66, 0x6f, 0x78, 0x20, 0x6a, 0x75, 0x6d, 0x70, 0x73, 0x20, 0x6f, 0x76, 0x65, 0x72, 0x20, 0x74,
    0x68, 0x65, 0x20, 0x6c, 0x61, 0x7a, 0x79, 0x20, 0x64, 0x6f, 0x67] 0 false =
    (0xe34bbc7bbc071b6c, 0x7a433ca9c49a9347)
end

