-- ==== Sys2Proof/Laws/Decode.lean ====
section
/-! SUPPORT. Byte order and packet lengths: `leBytes` writes what `leNat` reads, and the opcode byte comes back. -/

namespace Sys2Proof.Machine

@[simp] theorem length_leBytes (n v : Nat) : (leBytes n v).length = n := by
  induction n generalizing v with
  | zero => rfl
  | succ n ih => simp [leBytes, ih]

@[simp] theorem length_bytes64 (v : Word) : (bytes64 v).length = 8 := length_leBytes 8 _

@[simp] theorem length_bytes32 (v : Word32) : (bytes32 v).length = 4 := length_leBytes 4 _

theorem leNat_lt (bs : List Byte) : leNat bs < 256 ^ bs.length := by
  induction bs with
  | nil => simp [leNat]
  | cons b bs ih =>
    have := b.isLt
    simp only [leNat, List.length_cons, Nat.pow_succ]
    omega

/-- A field of `n` bytes reads back the value written into it, modulo `2^(8n)`. -/
theorem leNat_leBytes (n v : Nat) : leNat (leBytes n v) = v % 256 ^ n := by
  induction n generalizing v with
  | zero => simp [leBytes, leNat, Nat.mod_one]
  | succ n ih =>
    have h : v % 256 ^ (n + 1) = v % 256 + 256 * (v / 256 % 256 ^ n) := by rw [pow_succ', Nat.mod_mul]
    rw [leBytes, leNat, ih, BitVec.toNat_ofNat, h]

/-- The bytes of a field are the bytes of its value: nothing is lost in reading. -/
theorem leBytes_leNat (bs : List Byte) : leBytes bs.length (leNat bs) = bs := by
  induction bs with
  | nil => rfl
  | cons b bs ih =>
    have hb := b.isLt
    simp only [List.length_cons, leBytes, leNat]
    rw [show (b.toNat + 256 * leNat bs) / 256 = leNat bs by omega, ih]
    congr 1
    apply BitVec.eq_of_toNat_eq
    simp only [BitVec.toNat_ofNat]
    omega

theorem ofNat_leNat_bytes64 (v : Word) : BitVec.ofNat 64 (leNat (bytes64 v)) = v := by
  apply BitVec.eq_of_toNat_eq
  rw [bytes64, leNat_leBytes]
  have := v.isLt
  simp only [BitVec.toNat_ofNat]
  omega

theorem ofNat_leNat_bytes32 (v : Word32) : BitVec.ofNat 32 (leNat (bytes32 v)) = v := by
  apply BitVec.eq_of_toNat_eq
  rw [bytes32, leNat_leBytes]
  have := v.isLt
  simp only [BitVec.toNat_ofNat]
  omega

@[simp] theorem ofByte_byte (op : Opcode) : Opcode.ofByte op.byte = some op := by
  cases op with
  | hash swap => cases swap <;> rfl
  | _ => rfl

/-- The defined opcode bytes are exactly the bytes of the opcodes (R52). -/
theorem byte_of_ofByte {b : Byte} {op : Opcode} (h : Opcode.ofByte b = some op) : op.byte = b := by
  unfold Opcode.ofByte at h
  split_ifs at h <;> cases h <;> simp_all [Opcode.byte]

end Sys2Proof.Machine
end

