-- ==== Sys2Proof/Laws/Mixer.lean ====
section
/-! SUPPORT. The mixer on the working registers computes the function `mh3`, whatever the registers held. -/

namespace Sys2Proof.Machine

/-- The block loop on the registers folds like the block loop on a pair, and leaves `LEN` alone. -/
theorem blockSteps_pair (c : MixConst) (key : Key) (bs : List Nat) (w : Work) :
    let v := bs.foldl (blockStep c key) w
    (v.H1, v.H2) = bs.foldl (fun h b => blockRound c h.1 h.2 (memRead64 key (16 * b)) (memRead64 key (16 * b + 8)))
        (w.H1, w.H2) ∧ v.LEN = w.LEN := by
  induction bs generalizing w with
  | nil => exact ⟨rfl, rfl⟩
  | cons b bs ih => exact ih (blockStep c key w b)

/-- R79, R23: the pair the mixer leaves in `H1`, `H2` is `mh3`, a function of the key, the seed and the flag. -/
theorem runMixer_pair (c : MixConst) (key : Key) (seed : Word32) (swap : Bool) (w : Work) :
    ((runMixer c key seed swap w).H1, (runMixer c key seed swap w).H2) = mh3 c key seed swap := by
  have h := blockSteps_pair c key (List.range ((keyLen key).toNat / 16)) (startHash key seed w)
  simp only [startHash] at h
  obtain ⟨hp, hl⟩ := h
  simp only [runMixer, startHash, tailStep, finishStep, mh3, mixBlocks, tailBytes] at *
  rw [← hp, hl]

theorem runMixer_H1 (c : MixConst) (key : Key) (seed : Word32) (swap : Bool) (w : Work) :
    (runMixer c key seed swap w).H1 = (mh3 c key seed swap).1 :=
  congrArg Prod.fst (runMixer_pair c key seed swap w)

theorem runMixer_H2 (c : MixConst) (key : Key) (seed : Word32) (swap : Bool) (w : Work) :
    (runMixer c key seed swap w).H2 = (mh3 c key seed swap).2 :=
  congrArg Prod.snd (runMixer_pair c key seed swap w)

/-- The pair ADD and EXISTS probe with (R115, R116). -/
theorem hashKey_H1 (key : Key) (w : Work) :
    (hashKey key w).H1 = (mh3 mixConst key mixConst.DEFAULT_SEED false).1 := runMixer_H1 ..

theorem hashKey_H2 (key : Key) (w : Work) :
    (hashKey key w).H2 = (mh3 mixConst key mixConst.DEFAULT_SEED false).2 := runMixer_H2 ..

end Sys2Proof.Machine
end

