-- ==== Sys2Proof/Laws/Memory.lean ====
section
/-! SUPPORT. The laws of the bit array: read after write, every write keeps the canonical form, and canonical
arrays with equal reads are equal. -/

namespace Sys2Proof.Machine

theorem mem_insertIndex (i x : Nat) (l : List Nat) : x ∈ insertIndex i l ↔ x = i ∨ x ∈ l := by
  induction l with
  | nil => simp [insertIndex]
  | cons j js ih =>
    simp only [insertIndex]
    split_ifs with h₁ h₂
    · simp
    · subst h₂; simp
    · simp only [List.mem_cons, ih]; tauto

@[simp] theorem read_allFalse (i : Nat) : Memory.allFalse.read i = false := by
  simp [Memory.allFalse, Memory.read]

/-- R31, R32: what a read finds after a write. -/
theorem read_write (b : Memory) (i j : Nat) (v : Bool) :
    (b.write i v).read j = if j = i then v else b.read j := by
  cases v
  · by_cases h : j = i <;> simp [Memory.write, Memory.read, h]
  · by_cases h : j = i <;> simp [Memory.write, Memory.read, mem_insertIndex, h]

theorem pairwise_insertIndex (i : Nat) (l : List Nat) (h : l.Pairwise (fun a b => a < b)) :
    (insertIndex i l).Pairwise (fun a b => a < b) := by
  induction l with
  | nil => simp [insertIndex]
  | cons j js ih =>
    obtain ⟨hj, hjs⟩ := List.pairwise_cons.mp h
    simp only [insertIndex]
    split_ifs with h₁ h₂
    · refine List.pairwise_cons.mpr ⟨fun x hx => ?_, h⟩
      rcases List.mem_cons.mp hx with rfl | hx
      · exact h₁
      · exact h₁.trans (hj x hx)
    · exact h
    · refine List.pairwise_cons.mpr ⟨fun x hx => ?_, ih hjs⟩
      rcases (mem_insertIndex i x js).mp hx with rfl | hx
      · omega
      · exact hj x hx

theorem wf_allFalse (len : Nat) : Memory.wf len Memory.allFalse := by
  simp [Memory.wf, Memory.allFalse]

/-- Every bit write inside the array keeps the canonical form. -/
theorem wf_write (len : Nat) (b : Memory) (i : Nat) (v : Bool) (hb : Memory.wf len b) (hi : i < len) :
    Memory.wf len (b.write i v) := by
  cases v
  · refine ⟨?_, fun j hj => ?_⟩
    · simpa [Memory.write] using hb.1.filter _
    · simp only [Memory.write, Bool.false_eq_true, if_false, List.mem_filter] at hj
      exact hb.2 j hj.1
  · refine ⟨?_, fun j hj => ?_⟩
    · simpa [Memory.write] using pairwise_insertIndex i b.ones hb.1
    · simp only [Memory.write, if_true, mem_insertIndex] at hj
      rcases hj with rfl | hj
      · exact hi
      · exact hb.2 j hj

/-- The canonical form is canonical: arrays that read alike are equal data. -/
theorem ext_of_read (len : Nat) (a b : Memory) (ha : Memory.wf len a) (hb : Memory.wf len b)
    (h : ∀ i, a.read i = b.read i) : a = b := by
  obtain ⟨la⟩ := a
  obtain ⟨lb⟩ := b
  have hmem : ∀ i, i ∈ la ↔ i ∈ lb := by simpa [Memory.read] using h
  have hp : la.Perm lb := (List.perm_ext_iff_of_nodup (ha.1.imp Nat.ne_of_lt) (hb.1.imp Nat.ne_of_lt)).mpr hmem
  exact congrArg Memory.mk
    (hp.eq_of_pairwise (fun a b _ _ h₁ h₂ => absurd h₁ (Nat.lt_asymm h₂)) ha.1 hb.1)

end Sys2Proof.Machine
end

