-- ==== Sys2Proof/Laws/Probe.lean ====
section
/-! SUPPORT. What the probe loops do, said once: where they probe (the closed form of R110), what they leave in
`BITS`, and what they leave in `ACC`. -/

namespace Sys2Proof.Machine

theorem probeIndex_zero (h1 h2 M : Word) : probeIndex h1 h2 M 0 = h1.toNat % M.toNat := by
  simp [probeIndex, Nat.mod_eq_of_lt h1.isLt]

/-- One walk later, the same indices, one further on. -/
theorem probeIndex_walk (h1 h2 M : Word) (i : Nat) :
    probeIndex (h1 + h2) h2 M i = probeIndex h1 h2 M (i + 1) := by
  unfold probeIndex
  congr 1
  rw [BitVec.toNat_add, Nat.mod_add_mod]
  congr 1
  ring

theorem probeIndex_lt (h1 h2 M : Word) (i : Nat) (hM : M ≠ 0) : probeIndex h1 h2 M i < M.toNat := by
  apply Nat.mod_lt
  have : M.toNat ≠ 0 := fun h => hM (BitVec.eq_of_toNat_eq (by simpa using h))
  omega

@[simp] theorem addProbe_H1 (M : Word) (x : Work × Memory) : (addProbe M x).1.H1 = x.1.H1 + x.1.H2 := rfl
@[simp] theorem addProbe_H2 (M : Word) (x : Work × Memory) : (addProbe M x).1.H2 = x.1.H2 := rfl
@[simp] theorem addProbe_IDX (M : Word) (x : Work × Memory) : (addProbe M x).1.IDX = umod x.1.H1 M := rfl
@[simp] theorem addProbe_ACC (M : Word) (x : Work × Memory) :
    (addProbe M x).1.ACC = (x.1.ACC || !x.2.read (umod x.1.H1 M).toNat) := rfl
@[simp] theorem addProbe_bits (M : Word) (x : Work × Memory) :
    (addProbe M x).2 = x.2.write (umod x.1.H1 M).toNat true := rfl
@[simp] theorem testProbe_H1 (M : Word) (b : Memory) (w : Work) : (testProbe M b w).H1 = w.H1 + w.H2 := rfl
@[simp] theorem testProbe_H2 (M : Word) (b : Memory) (w : Work) : (testProbe M b w).H2 = w.H2 := rfl
@[simp] theorem testProbe_IDX (M : Word) (b : Memory) (w : Work) : (testProbe M b w).IDX = umod w.H1 M := rfl
@[simp] theorem testProbe_ACC (M : Word) (b : Memory) (w : Work) :
    (testProbe M b w).ACC = (w.ACC && b.read (umod w.H1 M).toNat) := rfl

theorem umod_toNat (a m : Word) : (umod a m).toNat = a.toNat % m.toNat := by
  simp [umod]

/-- What `n` probes of ADD leave in the array: their bits set, the others as they were. -/
theorem read_addLoop (M : Word) (n : Nat) (x : Work × Memory) (j : Nat) :
    (addLoop M n x).2.read j = (x.2.read j || decide (∃ i < n, probeIndex x.1.H1 x.1.H2 M i = j)) := by
  induction n generalizing x with
  | zero => simp [addLoop]
  | succ n ih =>
    rw [addLoop, ih]
    simp only [addProbe_H1, addProbe_H2, addProbe_bits, read_write, umod_toNat, probeIndex_walk]
    have key : (∃ i < n + 1, probeIndex x.1.H1 x.1.H2 M i = j) ↔
        j = x.1.H1.toNat % M.toNat ∨ ∃ i < n, probeIndex x.1.H1 x.1.H2 M (i + 1) = j := by
      constructor
      · rintro ⟨i, hi, rfl⟩
        cases i with
        | zero => exact .inl (probeIndex_zero _ _ _)
        | succ i => exact .inr ⟨i, by omega, rfl⟩
      · rintro (rfl | ⟨i, hi, rfl⟩)
        · exact ⟨0, by omega, probeIndex_zero _ _ _⟩
        · exact ⟨i + 1, by omega, rfl⟩
    simp only [key]
    by_cases h : j = x.1.H1.toNat % M.toNat <;> simp [h]

/-- What `n` probes of ADD leave in `ACC`: whether one of their bits was clear before. -/
theorem acc_addLoop (M : Word) (n : Nat) (x : Work × Memory) :
    (addLoop M n x).1.ACC =
      (x.1.ACC || decide (∃ i < n, x.2.read (probeIndex x.1.H1 x.1.H2 M i) = false)) := by
  induction n generalizing x with
  | zero => simp [addLoop]
  | succ n ih =>
    rw [addLoop, ih]
    simp only [addProbe_H1, addProbe_H2, addProbe_bits, addProbe_ACC, read_write, umod_toNat, probeIndex_walk]
    rw [Bool.or_assoc]
    congr 1
    have key : (∃ i < n + 1, x.2.read (probeIndex x.1.H1 x.1.H2 M i) = false) ↔
        x.2.read (x.1.H1.toNat % M.toNat) = false ∨
        ∃ i < n, (if probeIndex x.1.H1 x.1.H2 M (i + 1) = x.1.H1.toNat % M.toNat then true
          else x.2.read (probeIndex x.1.H1 x.1.H2 M (i + 1))) = false := by
      constructor
      · rintro ⟨i, hi, hr⟩
        cases i with
        | zero => exact .inl (by rwa [probeIndex_zero] at hr)
        | succ i =>
          by_cases he : probeIndex x.1.H1 x.1.H2 M (i + 1) = x.1.H1.toNat % M.toNat
          · exact .inl (by rwa [he] at hr)
          · exact .inr ⟨i, by omega, by rw [if_neg he]; exact hr⟩
      · rintro (hr | ⟨i, hi, hr⟩)
        · exact ⟨0, by omega, by rwa [probeIndex_zero]⟩
        · refine ⟨i + 1, by omega, ?_⟩
          split at hr
          · simp at hr
          · exact hr
    simp only [key]
    by_cases h : x.2.read (x.1.H1.toNat % M.toNat) = false <;> simp [h]

/-- What `n` probes of EXISTS leave in `ACC`: whether all their bits are set. -/
theorem acc_testLoop (M : Word) (b : Memory) (n : Nat) (w : Work) :
    (testLoop M b n w).ACC = (w.ACC && decide (∀ i < n, b.read (probeIndex w.H1 w.H2 M i) = true)) := by
  induction n generalizing w with
  | zero => simp [testLoop]
  | succ n ih =>
    rw [testLoop, ih]
    simp only [testProbe_H1, testProbe_H2, testProbe_ACC, umod_toNat, probeIndex_walk]
    rw [Bool.and_assoc]
    congr 1
    have key : (∀ i < n + 1, b.read (probeIndex w.H1 w.H2 M i) = true) ↔
        b.read (w.H1.toNat % M.toNat) = true ∧ ∀ i < n, b.read (probeIndex w.H1 w.H2 M (i + 1)) = true := by
      constructor
      · exact fun h => ⟨by simpa [probeIndex_zero] using h 0 (by omega), fun i hi => h (i + 1) (by omega)⟩
      · rintro ⟨h0, h⟩ i hi
        cases i with
        | zero => rwa [probeIndex_zero]
        | succ i => exact h i (by omega)
    simp only [key]
    by_cases h : b.read (w.H1.toNat % M.toNat) = true <;> simp [h]

/-- The probe loop of ADD stays inside the array and keeps its canonical form (R38). -/
theorem wf_addLoop (M : Word) (n : Nat) (x : Work × Memory) (hM : M ≠ 0) (hb : Memory.wf M.toNat x.2) :
    Memory.wf M.toNat (addLoop M n x).2 := by
  induction n generalizing x with
  | zero => exact hb
  | succ n ih =>
    apply ih
    rw [addProbe_bits, umod_toNat]
    refine wf_write _ _ _ _ hb (Nat.mod_lt _ ?_)
    have : M.toNat ≠ 0 := fun h => hM (BitVec.eq_of_toNat_eq (by simpa using h))
    omega

end Sys2Proof.Machine
end

