-- ==== Sys2Proof/Laws/State.lean ====
section
/-! SUPPORT. One lemma per field per named update of the state, each true by rfl. -/

namespace Sys2Proof.Machine

@[simp] theorem scramble_M (s : State) : s.scramble.M = s.M := rfl
@[simp] theorem scramble_K (s : State) : s.scramble.K = s.K := rfl
@[simp] theorem scramble_BITS (s : State) : s.scramble.BITS = s.BITS := rfl
@[simp] theorem scramble_work (s : State) : s.scramble.work = freeWork s.freeTick := rfl
@[simp] theorem scramble_mMax (s : State) : s.scramble.mMax = s.mMax := rfl
@[simp] theorem scramble_program (s : State) : s.scramble.program = s.program := rfl
@[simp] theorem scramble_index (s : State) : s.scramble.index = s.index := rfl
@[simp] theorem scramble_responses (s : State) : s.scramble.responses = s.responses := rfl
@[simp] theorem scramble_freeTick (s : State) : s.scramble.freeTick = s.freeTick + 1 := rfl

@[simp] theorem respond_M (r : Response) (s : State) : (respond r s).M = s.M := rfl
@[simp] theorem respond_K (r : Response) (s : State) : (respond r s).K = s.K := rfl
@[simp] theorem respond_BITS (r : Response) (s : State) : (respond r s).BITS = s.BITS := rfl
@[simp] theorem respond_work (r : Response) (s : State) : (respond r s).work = freeWork s.freeTick := rfl
@[simp] theorem respond_mMax (r : Response) (s : State) : (respond r s).mMax = s.mMax := rfl
@[simp] theorem respond_program (r : Response) (s : State) : (respond r s).program = s.program := rfl
@[simp] theorem respond_index (r : Response) (s : State) : (respond r s).index = s.index := rfl
@[simp] theorem respond_responses (r : Response) (s : State) : (respond r s).responses = s.responses ++ [r] := rfl
@[simp] theorem respond_freeTick (r : Response) (s : State) : (respond r s).freeTick = s.freeTick + 1 := rfl

@[simp] theorem raise_M (e : ErrorCode) (s : State) : (raise e s).M = s.M := rfl
@[simp] theorem raise_K (e : ErrorCode) (s : State) : (raise e s).K = s.K := rfl
@[simp] theorem raise_BITS (e : ErrorCode) (s : State) : (raise e s).BITS = s.BITS := rfl
@[simp] theorem raise_work (e : ErrorCode) (s : State) : (raise e s).work = freeWork s.freeTick := rfl
@[simp] theorem raise_mMax (e : ErrorCode) (s : State) : (raise e s).mMax = s.mMax := rfl
@[simp] theorem raise_program (e : ErrorCode) (s : State) : (raise e s).program = s.program := rfl
@[simp] theorem raise_index (e : ErrorCode) (s : State) : (raise e s).index = s.index := rfl
@[simp] theorem raise_responses (e : ErrorCode) (s : State) : (raise e s).responses = s.responses ++ [.err e] := rfl
@[simp] theorem raise_freeTick (e : ErrorCode) (s : State) : (raise e s).freeTick = s.freeTick + 1 := rfl

@[simp] theorem powerOnReset_M (s : State) : (powerOnReset s).M = 0 := rfl
@[simp] theorem powerOnReset_K (s : State) : (powerOnReset s).K = 0 := rfl
@[simp] theorem powerOnReset_BITS (s : State) : (powerOnReset s).BITS = Memory.allFalse := rfl
@[simp] theorem powerOnReset_work (s : State) : (powerOnReset s).work = freeWork s.freeTick := rfl
@[simp] theorem powerOnReset_mMax (s : State) : (powerOnReset s).mMax = s.mMax := rfl
@[simp] theorem powerOnReset_program (s : State) : (powerOnReset s).program = s.program := rfl
@[simp] theorem powerOnReset_index (s : State) : (powerOnReset s).index = s.index := rfl
@[simp] theorem powerOnReset_responses (s : State) : (powerOnReset s).responses = s.responses := rfl
@[simp] theorem powerOnReset_freeTick (s : State) : (powerOnReset s).freeTick = s.freeTick + 1 := rfl

@[simp] theorem advance_M (s : State) : s.advance.M = s.M := rfl
@[simp] theorem advance_K (s : State) : s.advance.K = s.K := rfl
@[simp] theorem advance_BITS (s : State) : s.advance.BITS = s.BITS := rfl
@[simp] theorem advance_work (s : State) : s.advance.work = s.work := rfl
@[simp] theorem advance_mMax (s : State) : s.advance.mMax = s.mMax := rfl
@[simp] theorem advance_program (s : State) : s.advance.program = s.program := rfl
@[simp] theorem advance_index (s : State) : s.advance.index = s.index + 1 := rfl
@[simp] theorem advance_responses (s : State) : s.advance.responses = s.responses := rfl
@[simp] theorem advance_freeTick (s : State) : s.advance.freeTick = s.freeTick := rfl

@[simp] theorem placeNext_M (s : State) (e : HostEvent) : (s.placeNext e).M = s.M := rfl
@[simp] theorem placeNext_K (s : State) (e : HostEvent) : (s.placeNext e).K = s.K := rfl
@[simp] theorem placeNext_BITS (s : State) (e : HostEvent) : (s.placeNext e).BITS = s.BITS := rfl
@[simp] theorem placeNext_mMax (s : State) (e : HostEvent) : (s.placeNext e).mMax = s.mMax := rfl
@[simp] theorem placeNext_responses (s : State) (e : HostEvent) : (s.placeNext e).responses = s.responses := rfl

/-- The event that was placed is the one fetched next. -/
theorem fetch_placeNext (s : State) (e : HostEvent) : (s.placeNext e).fetch = some e := by
  unfold State.placeNext State.fetch
  simp

end Sys2Proof.Machine
end

