-- ==== Sys2Proof/Laws/Exec.lean ====
section
/-! SUPPORT. What each shared operation and each command can do, said once: the inversion lemmas that claims about
`exec` cite. -/

namespace Sys2Proof.Machine

/-- The array after the probes of ADD with a given pair. -/
def addedBits (s : State) (h1 h2 : Word) : Memory :=
  (addLoop s.M (probeCount s.K) ({ s.work with H1 := h1, H2 := h2, I := 0, ACC := false }, s.BITS)).2

theorem mem_probeIndices (h1 h2 M : Word) (K : Word32) (j : Nat) :
    j ∈ probeIndices h1 h2 M K ↔ ∃ i < probeCount K, probeIndex h1 h2 M i = j := by
  simp [probeIndices, probeCount]

theorem read_addedBits (s : State) (h1 h2 : Word) (j : Nat) :
    (addedBits s h1 h2).read j = (s.BITS.read j || decide (j ∈ probeIndices h1 h2 s.M s.K)) := by
  simp only [addedBits, read_addLoop, mem_probeIndices]

theorem wf_addedBits (s : State) (h1 h2 : Word) (hM : s.M ≠ 0) (hb : Memory.wf s.M.toNat s.BITS) :
    Memory.wf s.M.toNat (addedBits s h1 h2) :=
  wf_addLoop _ _ _ hM hb

/-- The array that the probes leave depends on the pair in `H1`, `H2` alone. -/
theorem addLoop_bits_congr (M : Word) (n : Nat) (x y : Work × Memory)
    (h1 : x.1.H1 = y.1.H1) (h2 : x.1.H2 = y.1.H2) (hb : x.2 = y.2) :
    (addLoop M n x).2 = (addLoop M n y).2 := by
  induction n generalizing x y with
  | zero => exact hb
  | succ n ih => exact ih _ _ (by simp [h1, h2]) (by simp [h2]) (by simp [h1, hb])

theorem addPair_eq (w : Work) (s : State) :
    addPair w s = whenDivisible s (.next (respond
      (.bool (decide (∃ j ∈ probeIndices w.H1 w.H2 s.M s.K, s.BITS.read j = false)))
      { s with BITS := addedBits s w.H1 w.H2 })) := by
  have hb : (addLoop s.M (probeCount s.K) ({ w with I := 0, ACC := false }, s.BITS)).2 = addedBits s w.H1 w.H2 :=
    addLoop_bits_congr _ _ _ _ rfl rfl rfl
  have ha : (addLoop s.M (probeCount s.K) ({ w with I := 0, ACC := false }, s.BITS)).1.ACC =
      decide (∃ j ∈ probeIndices w.H1 w.H2 s.M s.K, s.BITS.read j = false) := by
    rw [acc_addLoop, Bool.false_or, decide_eq_decide]
    simp [mem_probeIndices]
  simp only [addPair, hb, ha]

theorem testPair_eq (w : Work) (s : State) :
    testPair w s = whenDivisible s (.next (respond
      (.bool (decide (∀ j ∈ probeIndices w.H1 w.H2 s.M s.K, s.BITS.read j = true))) s)) := by
  have ha : (testLoop s.M s.BITS (probeCount s.K) { w with I := 0, ACC := true }).ACC =
      decide (∀ j ∈ probeIndices w.H1 w.H2 s.M s.K, s.BITS.read j = true) := by
    rw [acc_testLoop, Bool.true_and, decide_eq_decide]
    simp [mem_probeIndices]
  simp only [testPair, ha]

/-- ADDH and ADD at once: the pair `h` is the given one or the key's hash. -/
theorem execAddh_eq (h1 h2 : Word) (s : State) :
    execAddh h1 h2 s = whenConfigured s (whenDivisible s (.next (respond
      (.bool (decide (∃ j ∈ probeIndices h1 h2 s.M s.K, s.BITS.read j = false)))
      { s with BITS := addedBits s h1 h2 }))) := by
  unfold execAddh
  rw [addPair_eq]
  rfl

theorem execExistsh_eq (h1 h2 : Word) (s : State) :
    execExistsh h1 h2 s = whenConfigured s (whenDivisible s (.next (respond
      (.bool (decide (∀ j ∈ probeIndices h1 h2 s.M s.K, s.BITS.read j = true))) s))) := by
  unfold execExistsh
  rw [testPair_eq]
  rfl

/-- R115: ADD is ADDH of the key's hash. -/
theorem execAdd_eq (key : Key) (s : State) :
    execAdd key s = execAddh (mh3 mixConst key mixConst.DEFAULT_SEED false).1
      (mh3 mixConst key mixConst.DEFAULT_SEED false).2 s := by
  rw [execAddh_eq]
  unfold execAdd
  rw [addPair_eq, hashKey_H1, hashKey_H2]

/-- R116: EXISTS is EXISTSH of the key's hash. -/
theorem execExists_eq (key : Key) (s : State) :
    execExists key s = execExistsh (mh3 mixConst key mixConst.DEFAULT_SEED false).1
      (mh3 mixConst key mixConst.DEFAULT_SEED false).2 s := by
  rw [execExistsh_eq]
  unfold execExists
  rw [testPair_eq, hashKey_H1, hashKey_H2]

/-- R80: HASH answers with `mh3` in every state. -/
theorem execHash_eq (swap : Bool) (seed : Word32) (key : Key) (s : State) :
    execHash swap seed key s =
      .next (respond (.pair (mh3 mixConst key seed swap).1 (mh3 mixConst key seed swap).2) s) := by
  simp only [execHash, runMixer_H1, runMixer_H2]

/-- The pair a probing command walks with: its operands, or the hash of its key. -/
def pairOf : Instr → Option (Bool × Word × Word)
  | .config _ _ => none
  | .clear => none
  | .hash _ _ _ => none
  | .add key => some (true, mh3 mixConst key mixConst.DEFAULT_SEED false)
  | .existsKey key => some (false, mh3 mixConst key mixConst.DEFAULT_SEED false)
  | .addh h1 h2 => some (true, h1, h2)
  | .existsh h1 h2 => some (false, h1, h2)

/-- Everything one command can do, when it answers a next state. -/
theorem exec_cases {i : Instr} {s t : State} (h : exec i s = .next t) :
    (∃ e, t = raise e s) ∨
    (∃ size n, i = .config size n ∧ size ≠ 0 ∧ 0 < n.toInt ∧ ¬ s.mMax < size ∧
      t = respond .ok { s with M := size, K := n, BITS := Memory.allFalse }) ∨
    (i = .clear ∧ s.K ≠ 0 ∧ t = respond .ok { s with BITS := Memory.allFalse }) ∨
    (∃ swap seed key, i = .hash swap seed key ∧
      t = respond (.pair (mh3 mixConst key seed swap).1 (mh3 mixConst key seed swap).2) s) ∨
    (∃ h1 h2, pairOf i = some (true, h1, h2) ∧ s.K ≠ 0 ∧ (0 < probeCount s.K → s.M ≠ 0) ∧
      t = respond (.bool (decide (∃ j ∈ probeIndices h1 h2 s.M s.K, s.BITS.read j = false)))
        { s with BITS := addedBits s h1 h2 }) ∨
    (∃ h1 h2, pairOf i = some (false, h1, h2) ∧ s.K ≠ 0 ∧ (0 < probeCount s.K → s.M ≠ 0) ∧
      t = respond (.bool (decide (∀ j ∈ probeIndices h1 h2 s.M s.K, s.BITS.read j = true))) s) := by
  cases i with
  | config size n =>
    simp only [exec, execConfig] at h
    split_ifs at h with h₁ h₂ <;> cases h
    · exact .inl ⟨_, rfl⟩
    · exact .inl ⟨_, rfl⟩
    · push Not at h₁
      exact .inr (.inl ⟨size, n, rfl, h₁.1, h₁.2, h₂, rfl⟩)
  | clear =>
    simp only [exec, execClear, whenConfigured] at h
    split_ifs at h with h₁ <;> cases h
    · exact .inl ⟨_, rfl⟩
    · exact .inr (.inr (.inl ⟨rfl, h₁, rfl⟩))
  | hash swap seed key =>
    simp only [exec, execHash_eq] at h
    cases h
    exact .inr (.inr (.inr (.inl ⟨swap, seed, key, rfl, rfl⟩)))
  | add key =>
    simp only [exec, execAdd_eq, execAddh_eq, whenConfigured, whenDivisible] at h
    split_ifs at h with h₁ h₂ <;> cases h
    · exact .inl ⟨_, rfl⟩
    · exact .inr (.inr (.inr (.inr (.inl ⟨_, _, rfl, h₁, fun hp hM => h₂ ⟨hp, hM⟩, rfl⟩))))
  | existsKey key =>
    simp only [exec, execExists_eq, execExistsh_eq, whenConfigured, whenDivisible] at h
    split_ifs at h with h₁ h₂ <;> cases h
    · exact .inl ⟨_, rfl⟩
    · exact .inr (.inr (.inr (.inr (.inr ⟨_, _, rfl, h₁, fun hp hM => h₂ ⟨hp, hM⟩, rfl⟩))))
  | addh h1 h2 =>
    simp only [exec, execAddh_eq, whenConfigured, whenDivisible] at h
    split_ifs at h with h₁ h₂ <;> cases h
    · exact .inl ⟨_, rfl⟩
    · exact .inr (.inr (.inr (.inr (.inl ⟨_, _, rfl, h₁, fun hp hM => h₂ ⟨hp, hM⟩, rfl⟩))))
  | existsh h1 h2 =>
    simp only [exec, execExistsh_eq, whenConfigured, whenDivisible] at h
    split_ifs at h with h₁ h₂ <;> cases h
    · exact .inl ⟨_, rfl⟩
    · exact .inr (.inr (.inr (.inr (.inr ⟨_, _, rfl, h₁, fun hp hM => h₂ ⟨hp, hM⟩, rfl⟩))))

end Sys2Proof.Machine
end

