-- ==== Sys2Proof/Laws/PerInstr.lean ====
section
/-! SUPPORT. Per command: the encoder writes packets of the length R55 gives the command's format and key. -/

namespace Sys2Proof.Laws

open Machine

/-- `KLEN` of a command: the length of its key, 0 if it has none. -/
def klenOf : Instr → Nat
  | .config _ _ => 0
  | .clear => 0
  | .hash _ _ key => key.length
  | .add key => key.length
  | .existsKey key => key.length
  | .addh _ _ => 0
  | .existsh _ _ => 0

/-- The encoded packet starts with the command's opcode byte and has the expected length (R52, R55). -/
def EncodedLength.Statement (i : Instr) : Prop :=
  (encode i).head? = some i.opcode.byte ∧ (encode i).length = i.opcode.format.fixedLength + klenOf i

theorem EncodedLength.config (size : Word) (numHashes : Word32) :
    EncodedLength.Statement (.config size numHashes) := by
  simp [EncodedLength.Statement, encode, Instr.opcode, Instr.operandBytes, Opcode.format, Format.fixedLength, klenOf]

theorem EncodedLength.clear : EncodedLength.Statement .clear := by
  simp [EncodedLength.Statement, encode, Instr.opcode, Instr.operandBytes, Opcode.format, Format.fixedLength, klenOf]

theorem EncodedLength.hash (swap : Bool) (seed : Word32) (key : Key) :
    EncodedLength.Statement (.hash swap seed key) := by
  simp only [EncodedLength.Statement, encode, Instr.opcode, Instr.operandBytes, Opcode.format, Format.fixedLength,
    klenOf, List.head?_cons, List.length_cons, List.length_append, length_bytes32, length_leBytes, true_and]
  omega

theorem EncodedLength.add (key : Key) : EncodedLength.Statement (.add key) := by
  simp only [EncodedLength.Statement, encode, Instr.opcode, Instr.operandBytes, Opcode.format, Format.fixedLength,
    klenOf, List.head?_cons, List.length_cons, List.length_append, length_leBytes, true_and]
  omega

theorem EncodedLength.existsKey (key : Key) : EncodedLength.Statement (.existsKey key) := by
  simp only [EncodedLength.Statement, encode, Instr.opcode, Instr.operandBytes, Opcode.format, Format.fixedLength,
    klenOf, List.head?_cons, List.length_cons, List.length_append, length_leBytes, true_and]
  omega

theorem EncodedLength.addh (h1 h2 : Word) : EncodedLength.Statement (.addh h1 h2) := by
  simp [EncodedLength.Statement, encode, Instr.opcode, Instr.operandBytes, Opcode.format, Format.fixedLength, klenOf]

theorem EncodedLength.existsh (h1 h2 : Word) : EncodedLength.Statement (.existsh h1 h2) := by
  simp [EncodedLength.Statement, encode, Instr.opcode, Instr.operandBytes, Opcode.format, Format.fixedLength, klenOf]

end Sys2Proof.Laws
end

