-- ==== Sys2Proof/Laws/Step.lean ====
section
/-! SUPPORT. What one step can do, said once: idle, power-on reset, the answer to an illegal packet, or one command. -/

namespace Sys2Proof.Machine

theorem step_idle {s : State} (h : s.fetch = none) : step s = .next s := by
  simp [step, runNext, h]

theorem step_powerOn {s : State} (h : s.fetch = some .powerOn) : step s = .next (powerOnReset s).advance := by
  simp [step, runNext, h, runEvent, advanceNext]

theorem step_illegal {s : State} {p : Packet} {e : IllegalPacket} (h : s.fetch = some (.packet p))
    (hd : decode p = .error e) : step s = .next (raise .illegalCommand s).advance := by
  simp [step, runNext, h, runEvent, runPacket, hd, advanceNext]

/-- A step runs the command that the packet decodes to, and moves the host's position on. -/
theorem step_command {s : State} {p : Packet} {i : Instr} (h : s.fetch = some (.packet p))
    (hd : decode p = .ok i) : step s = advanceNext (exec i s) := by
  simp [step, runNext, h, runEvent, runPacket, hd]

theorem advanceNext_eq_next {o : Host.Outcome State Fault Refusal} {t : State} (h : advanceNext o = .next t) :
    ∃ u, o = .next u ∧ t = u.advance := by
  cases o with
  | next u => cases h; exact ⟨u, rfl, rfl⟩
  | fault r => cases h
  | refused r => cases h

/-- Everything one step can do, when it answers a next state. -/
theorem step_cases {s t : State} (h : step s = .next t) :
    (s.fetch = none ∧ t = s) ∨
    (s.fetch = some .powerOn ∧ t = (powerOnReset s).advance) ∨
    (∃ p e, s.fetch = some (.packet p) ∧ decode p = .error e ∧ t = (raise .illegalCommand s).advance) ∨
    (∃ p i u, s.fetch = some (.packet p) ∧ decode p = .ok i ∧ exec i s = .next u ∧ t = u.advance) := by
  rcases hf : s.fetch with _ | e
  · rw [step_idle hf] at h
    cases h
    exact .inl ⟨rfl, rfl⟩
  · rcases e with p | _
    · rcases hd : decode p with e | i
      · rw [step_illegal hf hd] at h
        cases h
        exact .inr (.inr (.inl ⟨p, e, rfl, hd, rfl⟩))
      · rw [step_command hf hd] at h
        obtain ⟨u, hu, ht⟩ := advanceNext_eq_next h
        exact .inr (.inr (.inr ⟨p, i, u, rfl, hd, hu, ht⟩))
    · rw [step_powerOn hf] at h
      cases h
      exact .inr (.inl ⟨rfl, rfl⟩)

/-- A run goes on from the state its first step answers. -/
theorem runSteps_succ {s t : State} (k : Nat) (h : step s = .next t) : runSteps (k + 1) s = runSteps k t := by
  simp only [runSteps, h]

end Sys2Proof.Machine
end

