-- ==== Sys2Proof/Machine/Assembler.lean ====
section
/-! DEFINITION. The text form in which the spec writes commands (spec/30_encoding.md R57): one command on a line, a
semicolon before a comment, keys as quoted ASCII or as hexadecimal digits, and the pseudo-command HASHD. MAKE is
sized on the host in floating point (spec/43_sizing_reference.md R132) and is not assembled (log 10). -/

namespace Sys2Proof.Machine

/-- The double quote. -/
def quoteChar : Char := Char.ofNat 34

/-- What a line is made of: words, commas, and keys given as text or as hexadecimal digits. -/
inductive Token where
  | word (cs : List Char)
  | comma
  | text (cs : List Char)
  | hexText (cs : List Char)
  deriving DecidableEq, Repr

/-- Where the reading of a line stands: between tokens, inside a word, or inside a quoted key; the characters read so
far are held in reverse. -/
inductive LexMode where
  | gap
  | word (acc : List Char)
  | quoted (hex : Bool) (acc : List Char)
  deriving DecidableEq, Repr

/-- A blank. -/
def isBlank (c : Char) : Bool := c == ' ' || c == '\t'

/-- The tokens of a line, up to its end or its comment; none for an unfinished quote. -/
def lexLine : LexMode → List Char → Option (List Token)
  | .gap, [] => some []
  | .word acc, [] => some [.word acc.reverse]
  | .quoted _ _, [] => none
  | .gap, c :: cs =>
    if isBlank c then lexLine .gap cs
    else if c = ';' then some []
    else if c = ',' then (lexLine .gap cs).map (fun ts => .comma :: ts)
    else if c = quoteChar then lexLine (.quoted false []) cs
    else lexLine (.word [c]) cs
  | .word acc, c :: cs =>
    if isBlank c then (lexLine .gap cs).map (fun ts => .word acc.reverse :: ts)
    else if c = ';' then some [.word acc.reverse]
    else if c = ',' then (lexLine .gap cs).map (fun ts => .word acc.reverse :: .comma :: ts)
    else if c = quoteChar then (if acc = ['x'] then lexLine (.quoted true []) cs else none)
    else lexLine (.word (c :: acc)) cs
  | .quoted hex acc, c :: cs =>
    if c = quoteChar then
      (lexLine .gap cs).map (fun ts => (if hex then .hexText acc.reverse else .text acc.reverse) :: ts)
    else lexLine (.quoted hex (c :: acc)) cs

/-- The value of a digit in a base up to 16. -/
def digit? (base : Nat) (c : Char) : Option Nat :=
  let n := c.toNat
  let v :=
    if 48 ≤ n ∧ n ≤ 57 then some (n - 48)
    else if 97 ≤ n ∧ n ≤ 102 then some (n - 87)
    else if 65 ≤ n ∧ n ≤ 70 then some (n - 55)
    else none
  v.filter (fun d => decide (d < base))

/-- Digits onto a value. -/
def digits? (base : Nat) : Nat → List Char → Option Nat
  | acc, [] => some acc
  | acc, c :: cs => (digit? base c).bind (fun d => digits? base (acc * base + d) cs)

/-- An unsigned number, decimal or with the prefix `0x` (R5, R57). -/
def number? (cs : List Char) : Option Nat :=
  match cs with
  | [] => none
  | '0' :: 'x' :: [] => none
  | '0' :: 'x' :: hs => digits? 16 0 hs
  | ds => digits? 10 0 ds

/-- A number that fits 64 bits. -/
def num64? (cs : List Char) : Option Word :=
  (number? cs).bind (fun n => if n < 2 ^ 64 then some (BitVec.ofNat 64 n) else none)

/-- A seed: a number that fits 32 bits. -/
def num32? (cs : List Char) : Option Word32 :=
  (number? cs).bind (fun n => if n < 2 ^ 32 then some (BitVec.ofNat 32 n) else none)

/-- A signed number that fits an i32. -/
def signed32? (cs : List Char) : Option Word32 :=
  match cs with
  | '-' :: ds => (digits? 10 0 ds).bind
      (fun n => if ds ≠ [] ∧ n ≤ 2 ^ 31 then some (BitVec.ofInt 32 (-(n : Int))) else none)
  | ds => (digits? 10 0 ds).bind (fun n => if ds ≠ [] ∧ n < 2 ^ 31 then some (BitVec.ofNat 32 n) else none)

/-- The bytes of a quoted ASCII key: the characters' codes, with no terminator. -/
def asciiKey : List Char → Option Key
  | [] => some []
  | c :: cs => if c.toNat < 128 then (asciiKey cs).map (fun k => BitVec.ofNat 8 c.toNat :: k) else none

/-- The bytes of a hexadecimal key: two digits a byte, in offset order. -/
def hexKey : List Char → Option Key
  | [] => some []
  | [_] => none
  | a :: b :: cs =>
    match digit? 16 a, digit? 16 b with
    | some x, some y => (hexKey cs).map (fun k => BitVec.ofNat 8 (16 * x + y) :: k)
    | _, _ => none

/-- A key operand. -/
def keyToken : Token → Option Key
  | .text cs => asciiKey cs
  | .hexText cs => hexKey cs
  | .word _ => none
  | .comma => none

/-- A command from the tokens of its line. -/
def parseLine (ts : List Token) : Option Instr :=
  match ts with
  | [.word m] => if m = "CLEAR".toList then some .clear else none
  | [.word m, k] =>
    (keyToken k).bind (fun key =>
      if m = "ADD".toList then some (.add key)
      else if m = "EXISTS".toList then some (.existsKey key)
      else if m = "HASHD".toList then some (Instr.hashd key)
      else none)
  | [.word m, .word a, .comma, .word b] =>
    if m = "CONFIG".toList then
      (num64? a).bind (fun size => (signed32? b).map (fun n => .config size n))
    else if m = "ADDH".toList then (num64? a).bind (fun h1 => (num64? b).map (fun h2 => .addh h1 h2))
    else if m = "EXISTSH".toList then (num64? a).bind (fun h1 => (num64? b).map (fun h2 => .existsh h1 h2))
    else none
  | [.word m, .word a, .comma, k] =>
    if m = "HASH".toList then (num32? a).bind (fun seed => (keyToken k).map (fun key => .hash false seed key))
    else if m = "HASH.S".toList then (num32? a).bind (fun seed => (keyToken k).map (fun key => .hash true seed key))
    else none
  | _ => none

/-- The command a line of text stands for. -/
def assembleLine (line : String) : Option Instr := (lexLine .gap line.toList).bind parseLine

/-- The packet a line of text stands for: the command's encoding. -/
def assemble (line : String) : Option Packet := (assembleLine line).map encode

end Sys2Proof.Machine
end

