-- ==== Sys2Proof/Tests/Slice0.lean ====
section
/-! SUPPORT. The model's own tests. Expected values are the spec's: the packets, vectors and programs of
spec/95_test_vectors.md (named V1 to V12) and the examples of the rules named. -/

namespace Sys2Proof.Tests

open Machine

/-- The bytes of "hello" (R102). -/
def hello : Key := [0x68, 0x65, 0x6c, 0x6c, 0x6f]

/-- The bytes of "C++" (V11). -/
def cpp : Key := [0x43, 0x2b, 0x2b]

/-- A filter with the given `M`, `K` and true bits, and a program, as a state. -/
def filter (M : Word) (K : Word32) (ones : List Nat) (program : List HostEvent) : State :=
  { State.reset with M := M, K := K, BITS := ⟨ones⟩, program := program }

/-- What a test looks at after a step or a command: the responses, `M`, `K` and the true bits. -/
structure Seen where
  responses : List Response
  M : Word
  K : Word32
  ones : List Nat
  deriving DecidableEq, Repr

/-- The next state, as far as a test looks at it. -/
def seen (o : Host.Outcome State Fault Refusal) : Option Seen :=
  match o with
  | .next t => some ⟨t.responses, t.M, t.K, t.BITS.ones⟩
  | .fault _ => none
  | .refused _ => none

/-- Where the host stands after a step. -/
def indexAfter (o : Host.Outcome State Fault Refusal) : Option Nat :=
  match o with
  | .next t => some t.index
  | .fault _ => none
  | .refused _ => none

/-! ### WellFormed: the one check, with a term it refuses for each command that has a key (R33) -/

theorem test_wellFormed_accepts_the_empty_key : (Instr.add []).wellFormed = true := by decide

/-- A key one byte too long for `KLEN`. -/
def tooLong : Key := List.replicate (2 ^ 64) 0

theorem test_tooLong_does_not_fit : Key.fits tooLong = false := by
  rw [Key.fits, tooLong, List.length_replicate]
  decide

theorem test_wellFormed_refuses_keys_too_long :
    (Instr.hash false 0 tooLong).wellFormed = false ∧ (Instr.add tooLong).wellFormed = false ∧
    (Instr.existsKey tooLong).wellFormed = false :=
  ⟨test_tooLong_does_not_fit, test_tooLong_does_not_fit, test_tooLong_does_not_fit⟩

/-- R4, R33: the default of `KLEN_TRUSTED` trusts 2^31 - 1 bytes and no more; another value trusts otherwise. -/
theorem test_trusted :
    Instr.trusted Config.klenTrustedDefault (.add (List.replicate (2 ^ 31 - 1) 0)) = true ∧
    Instr.trusted Config.klenTrustedDefault (.add (List.replicate (2 ^ 31) 0)) = false ∧
    Instr.trusted 4 (.hash false 4011 hello) = false := by
  simp only [Instr.trusted, Key.trusted, Config.klenTrustedDefault, List.length_replicate]
  decide

/-! ### Decode: V11's packets, written out byte by byte, for every constructor; the refusals of R56 (V10) -/

theorem test_decode_config :
    decode [0x01, 0xbf, 0x03, 0, 0, 0, 0, 0, 0, 0x07, 0, 0, 0] = .ok (.config 959 7) := by decide

theorem test_decode_config_negative_count :
    decode [0x01, 0x0a, 0, 0, 0, 0, 0, 0, 0, 0, 0, 0, 0x80] = .ok (.config 10 (BitVec.ofInt 32 (-2147483648))) := by
  decide

theorem test_decode_clear : decode [0x02] = .ok .clear := by decide

theorem test_decode_hash :
    decode [0x10, 0xab, 0x0f, 0, 0, 5, 0, 0, 0, 0, 0, 0, 0, 0x68, 0x65, 0x6c, 0x6c, 0x6f] =
      .ok (.hash false 4011 hello) := by decide

theorem test_decode_hash_s :
    decode [0x11, 0xab, 0x0f, 0, 0, 5, 0, 0, 0, 0, 0, 0, 0, 0x68, 0x65, 0x6c, 0x6c, 0x6f] =
      .ok (.hash true 4011 hello) := by decide

theorem test_decode_add : decode [0x20, 5, 0, 0, 0, 0, 0, 0, 0, 0x68, 0x65, 0x6c, 0x6c, 0x6f] = .ok (.add hello) := by
  decide

theorem test_decode_exists : decode [0x21, 3, 0, 0, 0, 0, 0, 0, 0, 0x43, 0x2b, 0x2b] = .ok (.existsKey cpp) := by
  decide

theorem test_decode_addh : decode [0x30, 3, 0, 0, 0, 0, 0, 0, 0, 1, 0, 0, 0, 0, 0, 0, 0] = .ok (.addh 3 1) := by
  decide

theorem test_decode_existsh :
    decode [0x31, 0xff, 0xff, 0xff, 0xff, 0xff, 0xff, 0xff, 0xff, 2, 0, 0, 0, 0, 0, 0, 0] =
      .ok (.existsh 0xffffffffffffffff 2) := by decide

theorem test_decode_refuses_empty : decode [] = .error .empty := by decide

theorem test_decode_refuses_reserved_opcodes :
    decode [0x00] = .error (.unknownOpcode 0x00) ∧ decode [0x03] = .error (.unknownOpcode 0x03) ∧
    decode [0x12] = .error (.unknownOpcode 0x12) ∧ decode [0xff] = .error (.unknownOpcode 0xff) := by decide

theorem test_decode_refuses_wrong_lengths :
    decode [0x02, 0x00] = .error .wrongLength ∧
    decode [0x20, 5, 0, 0, 0, 0, 0, 0, 0, 0x68, 0x65, 0x6c, 0x6c] = .error .wrongLength ∧
    decode [0x01, 0x08, 0, 0] = .error .truncated := by decide

/-- R52: exactly eight of the 256 byte values are defined. -/
theorem test_eight_opcode_bytes :
    (List.range 256).filter (fun n => (Opcode.ofByte (BitVec.ofNat 8 n)).isSome) =
      [0x01, 0x02, 0x10, 0x11, 0x20, 0x21, 0x30, 0x31] := by decide +kernel

/-- The rows of the opcode table, the operands zero. -/
theorem test_decodeTableWord :
    decodeTableWord 8 0x01 = some (.config 0 0) ∧ decodeTableWord 8 0x02 = some .clear ∧
    decodeTableWord 8 0x10 = some (.hash false 0 []) ∧ decodeTableWord 8 0x11 = some (.hash true 0 []) ∧
    decodeTableWord 8 0x20 = some (.add []) ∧ decodeTableWord 8 0x21 = some (.existsKey []) ∧
    decodeTableWord 8 0x30 = some (.addh 0 0) ∧ decodeTableWord 8 0x31 = some (.existsh 0 0) ∧
    decodeTableWord 8 0x00 = none := by decide

/-- The first instruction after reset is the one placed (R111, R142: with zero operands CONFIG and ADD answer
errors). -/
theorem test_withFetchWord :
    seen (step (State.reset.withFetchWord 8 0x01)) = some ⟨[.err .invalidConfiguration], 0, 0, []⟩ ∧
    seen (step (State.reset.withFetchWord 8 0x20)) = some ⟨[.err .notConfigured], 0, 0, []⟩ ∧
    seen (step (State.reset.withFetchWord 8 0x10)) = some ⟨[.pair 0 0], 0, 0, []⟩ := by decide

/-! ### The primitives (V1) and the mixer (V2 to V7) -/

theorem test_rotl64 :
    rotl64 0x0123456789abcdef 31 = 0xc4d5e6f78091a2b3 ∧ rotl64 0x8000000000000000 1 = 1 := by decide

theorem test_bswap64 : bswap64 0x0123456789abcdef = 0xefcdab8967452301 := by decide

theorem test_mixk1 : mixk1 mixConst 0x0123456789abcdef = 0xe7d7c9c5f3d28bf1 := by decide

theorem test_mixk2 : mixk2 mixConst 0x0123456789abcdef = 0x839e380db8a75867 := by decide

theorem test_fmix64 : fmix64 mixConst 0x0123456789abcdef = 0x87cbfbfe89022cea := by decide

theorem test_blockRound :
    blockRound mixConst 0xfab 0xfab 0x0706050403020100 0x0f0e0d0c0b0a0908 =
      (0xdcac51163dc4a736, 0x729292405a458be0) := by decide

/-- V4, nine tail bytes: tail byte 7 in the top byte of `k1`, tail byte 8 at the bottom of `k2`. -/
theorem test_tail_nine_bytes :
    (let t : List Byte := [0, 1, 2, 3, 4, 5, 6, 7, 8]
     tailFold mixConst t.length 0xfab 0xfab (tailLane1 t) (tailLane2 t)) =
      (0xdf62d7cbeab53a25, 0x3bb5526b0042cc31) := by decide

theorem test_finalMix :
    finalMix mixConst 0xfab 0xfab 0 = (0xa8f6162d15bffd2d, 0x5bf515814d1fedef) := by decide

/-- V6, 33 bytes: two blocks and a tail of one byte. -/
theorem test_mh3_two_blocks_and_a_tail :
    mh3 mixConst ((List.range 33).map (BitVec.ofNat 8)) 4011 false = (0x2f78a7fda150351b, 0xfebb3db4a9062f7a) := by
  decide +kernel

/-- V6, 31 bytes: one block and the longest tail. -/
theorem test_mh3_one_block_and_the_longest_tail :
    mh3 mixConst ((List.range 31).map (BitVec.ofNat 8)) 4011 false = (0xb43fafe50755bc4b, 0x40ae547b3390c140) := by
  decide +kernel

/-- V7: the seed is zero-extended. -/
theorem test_mh3_seed_zero_extended :
    mh3 mixConst [] 0xffffffff false = (0x6af1df4d9d3bc9ec, 0x857421121ee6446b) := by decide +kernel

/-! ### The commands, one step each (V8 to V10 and the programs) -/

/-- V10: the largest count, `M = 1`. -/
theorem test_config :
    seen (exec (.config 1 2147483647) (filter 8 2 [3, 4] [])) = some ⟨[.ok], 1, 2147483647, []⟩ := by decide

/-- V10's machine with `M_MAX = 1024`. -/
def small : State := { filter 8 2 [3, 4] [] with mMax := 1024 }

/-- V10, with `M_MAX = 1024`: one above the capacity is refused, the old filter stays; at the capacity it is not; the
other test comes first. -/
theorem test_config_capacity :
    seen (exec (.config 1025 3) small) = some ⟨[.err .capacityExceeded], 8, 2, [3, 4]⟩ ∧
    seen (exec (.config 1024 3) small) = some ⟨[.ok], 1024, 3, []⟩ ∧
    seen (exec (.config 2000 0) small) = some ⟨[.err .invalidConfiguration], 8, 2, [3, 4]⟩ := by decide

theorem test_clear : seen (exec .clear (filter 8 2 [3, 4, 5] [])) = some ⟨[.ok], 8, 2, []⟩ := by decide

/-- R80's example, on an unconfigured engine. -/
theorem test_hash :
    seen (exec (.hash false 4011 hello) State.reset) =
      some ⟨[.pair 0xc3ab0004c7e7f2fa 0xfd9afdca8ce6984c], 0, 0, []⟩ := by decide +kernel

/-- R115's example: the seven bits of "hello". -/
theorem test_add :
    seen (exec (.add hello) (filter 959 7 [] [])) =
      some ⟨[.bool true], 959, 7, [12, 25, 209, 393, 406, 590, 787]⟩ := by decide +kernel

/-- Program 1, the second ADD of "hello". -/
theorem test_add_again :
    seen (exec (.add hello) (filter 959 7 [12, 25, 209, 393, 406, 590, 787] [])) =
      some ⟨[.bool false], 959, 7, [12, 25, 209, 393, 406, 590, 787]⟩ := by decide +kernel

/-- R116's example: the bits of "C++" are clear. -/
theorem test_exists :
    seen (exec (.existsKey cpp) (filter 959 7 [12, 25, 209, 393, 406, 590, 787] [])) =
      some ⟨[.bool false], 959, 7, [12, 25, 209, 393, 406, 590, 787]⟩ := by decide +kernel

/-- Program 5, a key of one block. -/
theorem test_exists_block_key :
    seen (exec (.existsKey ((List.range 16).map (BitVec.ofNat 8))) (filter 64 3 [20, 49, 55] [])) =
      some ⟨[.bool true], 64, 3, [20, 49, 55]⟩ := by decide +kernel

/-- V8, the wrap: indices 5, 1, 3, 5. -/
theorem test_addh_wraps :
    seen (exec (.addh 0xffffffffffffffff 2) (filter 10 4 [] [])) = some ⟨[.bool true], 10, 4, [1, 3, 5]⟩ := by decide

/-- V9: bit 5 was clear, bit 4 was not. -/
theorem test_addh_some_new :
    seen (exec (.addh 4 1) (filter 8 2 [3, 4] [])) = some ⟨[.bool true], 8, 2, [3, 4, 5]⟩ := by decide

/-- V9: a false positive at the pair level. -/
theorem test_existsh_true :
    seen (exec (.existsh 0xb 1) (filter 8 2 [3, 4, 5] [])) = some ⟨[.bool true], 8, 2, [3, 4, 5]⟩ := by decide

/-- V9: bit 6 is clear. -/
theorem test_existsh_false :
    seen (exec (.existsh 5 1) (filter 8 2 [3, 4, 5] [])) = some ⟨[.bool false], 8, 2, [3, 4, 5]⟩ := by decide

/-! ### The port -/

/-- V10: well-formedness is tested before the configuration. -/
theorem test_step_illegal_before_unconfigured :
    seen (step (filter 0 0 [] [.packet [0x20, 5, 0, 0, 0, 0, 0, 0, 0, 0x68, 0x65, 0x6c, 0x6c]])) =
      some ⟨[.err .illegalCommand], 0, 0, []⟩ := by decide

/-- R160: power-on reset between two commands; the host's position moves on. -/
theorem test_step_powerOn :
    seen (step (filter 8 2 [3, 4] [.powerOn])) = some ⟨[], 0, 0, []⟩ ∧
    indexAfter (step (filter 8 2 [3, 4] [.powerOn])) = some 1 := by decide

/-- V11: the response packets. -/
theorem test_response_packets :
    Response.encode (.pair 0xc3ab0004c7e7f2fa 0xfd9afdca8ce6984c) =
      [0x02, 0xfa, 0xf2, 0xe7, 0xc7, 0x04, 0x00, 0xab, 0xc3, 0x4c, 0x98, 0xe6, 0x8c, 0xca, 0xfd, 0x9a, 0xfd] ∧
    Response.encode (.bool true) = [0x01, 0x01] ∧ Response.encode (.err .capacityExceeded) = [0xff, 0x04] := by
  decide

/-- V11: text, command and packet (R57). -/
theorem test_assemble :
    assemble "CONFIG 959, 7   ; the scenario" = some [0x01, 0xbf, 0x03, 0, 0, 0, 0, 0, 0, 0x07, 0, 0, 0] ∧
    assemble "HASH.S 4011, \"hello\"" =
      some [0x11, 0xab, 0x0f, 0, 0, 5, 0, 0, 0, 0, 0, 0, 0, 0x68, 0x65, 0x6c, 0x6c, 0x6f] ∧
    assemble "ADD x\"\"" = some [0x20, 0, 0, 0, 0, 0, 0, 0, 0] ∧
    assemble "ADDH 0x3, 0x1" = some [0x30, 3, 0, 0, 0, 0, 0, 0, 0, 1, 0, 0, 0, 0, 0, 0, 0] ∧
    assembleLine "HASHD \"C++\"" = some (.hash false 4011 cpp) ∧
    assembleLine "CONFIG 10, -2147483648" = some (.config 10 0x80000000) := by decide +kernel

/-! ### Witnesses: for every statement with hypotheses, a state and operands that meet them together -/

/-- A configured filter with a program: ADD "hello", an illegal packet, EXISTS "C++", EXISTS "hello". -/
def busy : State :=
  filter 959 7 [] [.packet (encode (.add hello)), .packet [0x03], .packet (encode (.existsKey cpp)),
    .packet (encode (.existsKey hello))]

theorem witness_invariant : busy.Inv ∧ 1 ≤ busy.K.toInt ∧ busy.M ≠ 0 ∧ busy.index < busy.program.length := by decide

/-- At the edge of R18: the smallest filter on the smallest capacity. -/
theorem witness_invariant_at_the_edge :
    State.Inv { filter 1 1 [0] [] with mMax := 1 } ∧ State.Inv (filter 0 0 [] []) ∧
    State.Inv (filter 0xffffffffffffffff 0x7fffffff [0, 18446744073709551614] []) := by decide

theorem witness_round_trip : (Instr.hash true 0xffffffff hello).wellFormed = true := by decide

theorem witness_decodes : decode (encode (.existsh 0 0xffffffffffffffff)) = .ok (.existsh 0 0xffffffffffffffff) := by
  decide

/-- Fields of the lengths that OperandFieldsAreLittleEndian asks for, with a key of the length its field says; the
signed field at its two middle values. -/
theorem witness_fields :
    fieldValue [3, 0, 0, 0, 0, 0, 0, 0] = [1, 2, 3].length ∧ fieldValue [0xff, 0xff, 0xff, 0x7f] = 2 ^ 31 - 1 ∧
    fieldValue [0, 0, 0, 0x80] = 2 ^ 31 := by decide

theorem witness_step_command :
    busy.program[busy.index]? = some (.packet (encode (.add hello))) ∧ decode (encode (.add hello)) = .ok (.add hello) := by
  decide

theorem witness_illegal :
    let s : State := { busy with index := 1 }
    s.program[s.index]? = some (.packet [0x03]) ∧ legalPacket [0x03] = false := by decide

/-- The clauses of ChecksAreMadeInOrder, each with a packet. -/
theorem witness_checks :
    decode (encode (.config 10 0)) = .ok (.config 10 0) ∧ decode (encode (.config 1025 1)) = .ok (.config 1025 1) ∧
    (1024 : Word).toNat < (1025 : Word).toNat ∧ 0 < (1 : Word32).toInt ∧ (0 : Word32).toInt ≤ 0 ∧
    decode (encode .clear) = .ok .clear ∧ needsConfig .clear = true ∧ State.reset.K = 0 := by decide

theorem witness_powerOn : (filter 8 2 [3] [.powerOn]).program[(filter 8 2 [3] [.powerOn]).index]? = some .powerOn := by
  decide

theorem witness_program_over : State.reset.program.length ≤ State.reset.index := by decide

/-- A step from a state with the invariant answers a state. -/
theorem witness_step_next : ∃ t, step busy = .next t := by
  rcases h : step busy with t | r | r
  · exact ⟨t, rfl⟩
  · have : (indexAfter (step busy)).isSome = true := by decide +kernel
    rw [h] at this; cases this
  · have : (indexAfter (step busy)).isSome = true := by decide +kernel
    rw [h] at this; cases this

/-- Commands that answer a next state: one that keeps the filter, one that installs one on an unconfigured engine. -/
theorem witness_exec_next :
    (∃ t, exec (.existsh 3 1) (filter 8 2 [3, 4] []) = .next t ∧ t.responses = [.bool true]) ∧
    keepsFilter (filter 8 2 [3, 4] []).mMax (.existsh 3 1) = true ∧ (filter 8 2 [3, 4] []).BITS.read 3 = true ∧
    (∃ t, exec (.config 8 2) State.reset = .next t ∧ State.reset.K = 0 ∧ t.K ≠ 0) :=
  ⟨⟨_, rfl, rfl⟩, by decide, by decide, ⟨_, rfl, by decide, by decide⟩⟩

/-- Commands that answer each of the errors. -/
theorem witness_exec_errors :
    (∃ t, exec (.config 0 5) State.reset = .next t ∧ t.responses = [.err .invalidConfiguration]) ∧
    (∃ t, exec (.config 1025 3) { State.reset with mMax := 1024 } = .next t ∧
      t.responses = [.err .capacityExceeded]) ∧
    (∃ t, exec (.addh 0 0) State.reset = .next t ∧ t.responses = [.err .notConfigured]) ∧
    State.reset.mMax.toNat = 2 ^ 64 - 1 :=
  ⟨⟨_, rfl, rfl⟩, ⟨_, rfl, rfl⟩, ⟨_, rfl, rfl⟩, by decide⟩

/-- The fault: a state that no run reaches (R38). -/
theorem witness_fault :
    probes (.addh 0 0) = true ∧ 1 ≤ (filter 0 1 [] []).K.toInt ∧ (filter 0 1 [] []).M = 0 ∧
    exec (.addh 0 0) (filter 0 1 [] []) = .fault .umodByZero := ⟨by decide, by decide, by decide, rfl⟩

/-- The fault as a step's. -/
theorem witness_step_fault :
    let s := filter 0 1 [] [.packet (encode (.addh 0 0))]
    s.program[s.index]? = some (.packet (encode (.addh 0 0))) ∧ decode (encode (.addh 0 0)) = .ok (.addh 0 0) ∧
      exec (.addh 0 0) s = .fault .umodByZero := ⟨rfl, by decide, rfl⟩

/-- Two different states with the same filter, parameter and program. -/
theorem witness_same_filter :
    let t : State := { busy with work := { Work.reset with H1 := 7, ACC := true }, responses := [.ok] }
    SameFilter busy t ∧ t.mMax = busy.mMax ∧ t.program = busy.program ∧ t.index = busy.index ∧ t ≠ busy := by decide

/-- The clauses of CONFIG, at their boundaries. -/
theorem witness_config :
    (1 : Word) ≠ 0 ∧ 0 < (0x7fffffff : Word32).toInt ∧ (0x80000000 : Word32).toInt ≤ 0 ∧
    (1025 : Word).toNat > (1024 : Word).toNat ∧ (1024 : Word).toNat ≤ (1024 : Word).toNat := by decide

theorem witness_clear_equals_config :
    busy.M ≠ 0 ∧ 0 < busy.K.toInt ∧ busy.M.toNat ≤ busy.mMax.toNat := by decide

theorem witness_memory : Memory.wf 8 ⟨[0, 3, 7]⟩ := by decide

theorem witness_probe :
    (10 : Word) ≠ 0 ∧ ({ Work.reset with H1 := 0xffffffffffffffff, H2 := 2 } : Work).I = 0 := by decide

/-- HASH answers a pair, as KeyedCommandsAreHashThenPair supposes. -/
theorem witness_hash_pair :
    ∃ t h1 h2, exec (.hash false 4011 hello) State.reset = .next t ∧
      t.responses = State.reset.responses ++ [.pair h1 h2] := ⟨_, _, _, rfl, rfl⟩

theorem witness_empty_filter :
    1 ≤ busy.K.toInt ∧ busy.M ≠ 0 ∧ ∀ idx, busy.BITS.read idx = false :=
  ⟨by decide, by decide, fun _ => rfl⟩

/-- NoFalseNegatives: ADD "hello", an illegal packet and an EXISTS between, then EXISTS "hello". -/
theorem witness_no_false_negatives :
    AddsWhatExists (.add hello) (.existsKey hello) ∧
    [HostEvent.packet [0x03], .packet (encode (.existsKey cpp))].all (eventKeepsFilter busy.mMax) = true ∧
    busy.program.drop busy.index = .packet (encode (.add hello)) ::
      ([.packet [0x03], .packet (encode (.existsKey cpp))] ++ .packet (encode (.existsKey hello)) :: []) :=
  ⟨.inl ⟨hello, by decide, rfl, rfl⟩, by decide +kernel, rfl⟩

/-- The same for a pair, and for a second ADD of it. -/
theorem witness_second_add :
    AddsWhatExists (.addh 3 1) (.existsh 3 1) ∧
    (let s := filter 8 2 [] [.packet (encode (.addh 3 1)), .packet (encode (.addh 3 1))]
     s.Inv ∧ 1 ≤ s.K.toInt ∧
      s.program.drop s.index = .packet (encode (.addh 3 1)) :: ([] ++ .packet (encode (.addh 3 1)) :: [])) :=
  ⟨.inr ⟨3, 1, rfl, rfl⟩, by decide, by decide, rfl⟩

theorem witness_boot :
    ∀ i ∈ [Instr.add hello, .clear, .existsh 3 1], i.wellFormed = true ∧ ∀ size n, i ≠ .config size n := by
  intro i hi
  simp only [List.mem_cons, List.not_mem_nil, or_false] at hi
  rcases hi with rfl | rfl | rfl <;> exact ⟨by decide, fun _ _ h => by cases h⟩

theorem witness_key_length : hello.length < 2 ^ 64 ∧ ([0, 1, 2] : List Byte).length ≤ 15 := by decide

theorem witness_rotate : 1 ≤ 63 ∧ 63 ≤ 63 ∧ 63 < 64 := by decide

end Sys2Proof.Tests
end

section
/-! PROOFS. The rotate of R6: `rotl64` is the library's rotate, and where each bit of a word goes. -/

namespace Sys2Proof.Machine

/-- For the amounts R6 allows, the model's rotate is the library's. -/
theorem rotl64_eq_rotateLeft (a : Word) {n : Nat} (hn : n < 64) : rotl64 a n = a.rotateLeft n :=
  (BitVec.rotateLeft_eq_rotateLeftAux_of_lt hn).symm

/-- A bit that stays below position 64 moves up by `n`. -/
theorem getLsbD_rotl64_add (a : Word) {n i : Nat} (h : i + n < 64) :
    (rotl64 a n).getLsbD (i + n) = a.getLsbD i := by
  have hn : n < 64 := by omega
  rw [rotl64_eq_rotateLeft a hn, BitVec.getLsbD_rotateLeft_of_le hn]
  simp [h]

/-- A bit pushed past position 63 comes back in at the bottom. -/
theorem getLsbD_rotl64_wrap (a : Word) {n i : Nat} (hn : n < 64) (hi : i < 64) (h : 64 ≤ i + n) :
    (rotl64 a n).getLsbD (i + n - 64) = a.getLsbD i := by
  have hlow : i + n - 64 < n := by omega
  have hsource : 64 - n + (i + n - 64) = i := by omega
  rw [rotl64_eq_rotateLeft a hn, BitVec.getLsbD_rotateLeft_of_le hn]
  simp [hlow, hsource]

/-- Settles O46: the bit either stays below position 64 or wraps round once, and the two lemmas above say where it is. -/
theorem rotateMovesEveryBit : Obligations.RotateMovesEveryBit := by
  intro a n i _ hn hi
  rcases Nat.lt_or_ge (i + n) 64 with h | h
  · rw [Nat.mod_eq_of_lt h, getLsbD_rotl64_add a h]
  · have hmod : (i + n) % 64 = i + n - 64 := by omega
    rw [hmod, getLsbD_rotl64_wrap a (by omega) hi h]

end Sys2Proof.Machine
end

section
/-! PROOFS. What every command and every step does to the host's side of the port and to the invariant of R18. -/

namespace Sys2Proof.Machine

/-! ### The host's position -/

/-- R20: nothing is fetched exactly when the program is over. -/
theorem fetch_eq_none_iff (s : State) : s.fetch = none ↔ s.program.length ≤ s.index :=
  List.getElem?_eq_none_iff

theorem index_lt_of_fetch {s : State} {e : HostEvent} (h : s.fetch = some e) : s.index < s.program.length := by
  have hsome : s.fetch ≠ none := by simp [h]
  simpa [fetch_eq_none_iff] using hsome

theorem exists_fetch {s : State} (h : s.index < s.program.length) : ∃ e, s.fetch = some e :=
  ⟨_, List.getElem?_eq_getElem h⟩

/-- No command writes the parameter `M_MAX` or the host's side, but for the response it gives. -/
theorem exec_frame {i : Instr} {s t : State} (h : exec i s = .next t) :
    t.mMax = s.mMax ∧ t.program = s.program ∧ t.index = s.index := by
  rcases exec_cases h with ⟨e, rfl⟩ | ⟨size, n, -, -, -, -, rfl⟩ | ⟨-, -, rfl⟩ | ⟨swap, seed, key, -, rfl⟩ |
    ⟨h1, h2, -, -, -, rfl⟩ | ⟨h1, h2, -, -, -, rfl⟩
  all_goals exact ⟨rfl, rfl, rfl⟩

/-- R20: a step at an event moves the host on by 1 in the same program. -/
theorem step_advances {s t : State} {e : HostEvent} (hf : s.fetch = some e) (h : step s = .next t) :
    t.index = s.index + 1 ∧ t.program = s.program := by
  rcases step_cases h with ⟨hnone, -⟩ | ⟨-, rfl⟩ | ⟨p, e', -, -, rfl⟩ | ⟨p, i, u, -, -, hu, rfl⟩
  · simp [hf] at hnone
  · exact ⟨rfl, rfl⟩
  · exact ⟨rfl, rfl⟩
  · obtain ⟨-, hprogram, hindex⟩ := exec_frame hu
    simp [hprogram, hindex]

/-! ### The invariant -/

theorem inv_respond {s : State} (r : Response) (hs : s.Inv) : (respond r s).Inv := hs

theorem inv_raise {s : State} (e : ErrorCode) (hs : s.Inv) : (raise e s).Inv := hs

theorem inv_powerOnReset {s : State} (hs : s.Inv) : (powerOnReset s).Inv := by
  obtain ⟨-, -, hmax, hindex⟩ := hs
  exact ⟨.inl ⟨rfl, rfl⟩, wf_allFalse _, hmax, hindex⟩

theorem inv_advance {s : State} (hs : s.Inv) (h : s.index < s.program.length) : s.advance.Inv := by
  obtain ⟨hconf, hbits, hmax, -⟩ := hs
  exact ⟨hconf, hbits, hmax, h⟩

/-- The filter's array may be replaced by any other canonical one. -/
theorem inv_withBits {s : State} {b : Memory} (hs : s.Inv) (hb : Memory.wf s.M.toNat b) :
    State.Inv { s with BITS := b } := by
  obtain ⟨hconf, -, hmax, hindex⟩ := hs
  exact ⟨hconf, hb, hmax, hindex⟩

/-- The filter that a CONFIG with good operands installs has the invariant (R111, R18). -/
theorem inv_freshFilter {s : State} {size : Word} {n : Word32} (hs : s.Inv) (hsize : size ≠ 0) (hn : 0 < n.toInt)
    (hcap : ¬ s.mMax < size) : State.Inv { s with M := size, K := n, BITS := Memory.allFalse } := by
  obtain ⟨-, -, hmax, hindex⟩ := hs
  have hpos : 1 ≤ size.toNat := Nat.one_le_iff_ne_zero.mpr (BitVec.toNat_ne_iff_ne.mpr hsize)
  have hle : size.toNat ≤ s.mMax.toNat := BitVec.not_lt.mp hcap
  exact ⟨.inr ⟨hn, hpos, hle⟩, wf_allFalse _, hmax, hindex⟩

/-- R38: on a configured engine `M` is a modulus. -/
theorem M_ne_zero_of_inv {s : State} (hs : s.Inv) (hK : s.K ≠ 0) : s.M ≠ 0 := by
  obtain ⟨⟨hzero, -⟩ | ⟨-, hM, -⟩, -⟩ := hs
  · exact absurd hzero hK
  · intro hzero
    simp [hzero] at hM

theorem wf_BITS_of_inv {s : State} (hs : s.Inv) : Memory.wf s.M.toNat s.BITS := by
  obtain ⟨-, hbits, -, -⟩ := hs
  exact hbits

/-- R18 (a), (b), for one command. -/
theorem exec_keeps_inv {i : Instr} {s t : State} (hs : s.Inv) (h : exec i s = .next t) : t.Inv := by
  rcases exec_cases h with ⟨e, rfl⟩ | ⟨size, n, -, hsize, hn, hcap, rfl⟩ | ⟨-, -, rfl⟩ | ⟨swap, seed, key, -, rfl⟩ |
    ⟨h1, h2, -, hK, -, rfl⟩ | ⟨h1, h2, -, -, -, rfl⟩
  · exact inv_raise e hs
  · exact inv_respond _ (inv_freshFilter hs hsize hn hcap)
  · exact inv_respond _ (inv_withBits hs (wf_allFalse _))
  · exact inv_respond _ hs
  · exact inv_respond _ (inv_withBits hs (wf_addedBits s h1 h2 (M_ne_zero_of_inv hs hK) (wf_BITS_of_inv hs)))
  · exact inv_respond _ hs

/-- Settles O16: each of the four things a step can do keeps the invariant. -/
theorem stepKeepsTheInvariant : Obligations.StepKeepsTheInvariant := by
  intro s t hs h
  rcases step_cases h with ⟨-, rfl⟩ | ⟨hf, rfl⟩ | ⟨p, e, hf, -, rfl⟩ | ⟨p, i, u, hf, -, hu, rfl⟩
  · exact hs
  · exact inv_advance (inv_powerOnReset hs) (index_lt_of_fetch hf)
  · exact inv_advance (inv_raise _ hs) (index_lt_of_fetch hf)
  · obtain ⟨-, hprogram, hindex⟩ := exec_frame hu
    exact inv_advance (exec_keeps_inv hs hu) (by rw [hprogram, hindex]; exact index_lt_of_fetch hf)

/-- Settles O15: the unconfigured case, with no true bits and an empty program. -/
theorem resetSatisfiesTheInvariant : Obligations.ResetSatisfiesTheInvariant :=
  ⟨.inl ⟨rfl, rfl⟩, wf_allFalse _, by decide, Nat.le_refl 0⟩

/-! ### Which steps answer -/

/-- A command behind the two checks of the probing commands (R142, R38) answers a state, or its modulus is 0. -/
theorem whenChecked_answers_or_divides_by_zero (s t : State) :
    (∃ u, whenConfigured s (whenDivisible s (.next t)) = .next u) ∨
    (0 < probeCount s.K ∧ s.M = 0 ∧ whenConfigured s (whenDivisible s (.next t)) = .fault .umodByZero) := by
  unfold whenConfigured whenDivisible
  split_ifs with hK hdiv
  · exact .inl ⟨_, rfl⟩
  · exact .inr ⟨hdiv.1, hdiv.2, rfl⟩
  · exact .inl ⟨t, rfl⟩

/-- R38: a command answers a next state, or it probes where there is no modulus and faults. -/
theorem exec_answers_or_divides_by_zero (i : Instr) (s : State) :
    (∃ t, exec i s = .next t) ∨
    (probes i = true ∧ 0 < probeCount s.K ∧ s.M = 0 ∧ exec i s = .fault .umodByZero) := by
  cases i with
  | config size n =>
    simp only [exec, execConfig]
    split_ifs <;> exact .inl ⟨_, rfl⟩
  | clear =>
    simp only [exec, execClear, whenConfigured]
    split_ifs <;> exact .inl ⟨_, rfl⟩
  | hash swap seed key => exact .inl ⟨_, rfl⟩
  | add key =>
    simp only [exec, execAdd_eq, execAddh_eq, probes, true_and]
    exact whenChecked_answers_or_divides_by_zero s _
  | existsKey key =>
    simp only [exec, execExists_eq, execExistsh_eq, probes, true_and]
    exact whenChecked_answers_or_divides_by_zero s _
  | addh h1 h2 =>
    simp only [exec, execAddh_eq, probes, true_and]
    exact whenChecked_answers_or_divides_by_zero s _
  | existsh h1 h2 =>
    simp only [exec, execExistsh_eq, probes, true_and]
    exact whenChecked_answers_or_divides_by_zero s _

theorem exec_answers_of_inv {s : State} (hs : s.Inv) (i : Instr) : ∃ t, exec i s = .next t := by
  rcases exec_answers_or_divides_by_zero i s with hnext | ⟨-, hcount, hM, -⟩
  · exact hnext
  · have hK : s.K ≠ 0 := by
      intro hK
      simp [hK, probeCount] at hcount
    exact absurd hM (M_ne_zero_of_inv hs hK)

theorem step_answers_of_inv {s : State} (hs : s.Inv) : ∃ t, step s = .next t := by
  rcases hf : s.fetch with _ | (p | _)
  · exact ⟨_, step_idle hf⟩
  · rcases hd : decode p with e | i
    · exact ⟨_, step_illegal hf hd⟩
    · obtain ⟨t, ht⟩ := exec_answers_of_inv hs i
      exact ⟨t.advance, by rw [step_command hf hd, ht]; rfl⟩
  · exact ⟨_, step_powerOn hf⟩

/-- Settles O13: the invariant makes the step answer, and every answer at an event moves the host on. -/
theorem programIndexAdvancesByOne : Obligations.ProgramIndexAdvancesByOne := by
  intro s hs hlt
  obtain ⟨t, ht⟩ := step_answers_of_inv hs
  obtain ⟨e, hf⟩ := exists_fetch hlt
  exact ⟨t, ht, step_advances hf ht⟩

/-- Settles O7: the port passes on what the command's meaning answers. -/
theorem stepRunsTheDecodedCommand : Obligations.StepRunsTheDecodedCommand := by
  intro s p i hf hd
  have hstep : step s = advanceNext (exec i s) := step_command hf hd
  constructor
  · intro t ht
    rw [hstep, ht]
    rfl
  · intro r hr
    rw [hstep, hr]
    rfl

/-- Settles O12: nothing is fetched past the program's end. -/
theorem engineIsIdleWhenTheProgramIsOver : Obligations.EngineIsIdleWhenTheProgramIsOver :=
  fun s h => step_idle ((fetch_eq_none_iff s).mpr h)

end Sys2Proof.Machine
end

section
/-! PROOFS. Which commands write `M` and `K` and which clear bits (R11, R12, R17, R18). -/

namespace Sys2Proof.Machine

/-- What a command does to `M` and `K`: nothing, or it is the CONFIG that installs its operands and answers `OK`. -/
theorem exec_config_or_keeps {i : Instr} {s t : State} (h : exec i s = .next t) :
    (t.M = s.M ∧ t.K = s.K) ∨
    ∃ size n, i = .config size n ∧ size ≠ 0 ∧ 0 < n.toInt ∧ size.toNat ≤ s.mMax.toNat ∧ t.M = size ∧ t.K = n ∧
      t.responses = s.responses ++ [.ok] := by
  rcases exec_cases h with ⟨e, rfl⟩ | ⟨size, n, hi, hsize, hn, hcap, rfl⟩ | ⟨-, -, rfl⟩ | ⟨swap, seed, key, -, rfl⟩ |
    ⟨h1, h2, -, -, -, rfl⟩ | ⟨h1, h2, -, -, -, rfl⟩
  case inr.inl => exact .inr ⟨size, n, hi, hsize, hn, BitVec.not_lt.mp hcap, rfl, rfl, rfl⟩
  all_goals exact .inl ⟨rfl, rfl⟩

/-- Settles O20: the second case of `exec_config_or_keeps`, but for the response. -/
theorem onlySuccessfulConfigWritesMAndK : Obligations.OnlySuccessfulConfigWritesMAndK := by
  intro i s t h
  rcases exec_config_or_keeps h with hkeep | ⟨size, n, hi, hsize, hn, hcap, hM, hK, -⟩
  · exact .inl hkeep
  · exact .inr ⟨size, n, hi, hsize, hn, hcap, hM, hK⟩

/-- Settles O21: `K` stays, or it becomes a positive operand of a CONFIG that answers `OK`. -/
theorem configuredEngineStaysConfigured : Obligations.ConfiguredEngineStaysConfigured := by
  intro i s t h
  rcases exec_config_or_keeps h with ⟨-, hK⟩ | ⟨size, n, hi, -, hn, -, -, hK, hr⟩
  · rw [hK]
    exact ⟨id, fun hzero hne => absurd hzero hne⟩
  · rw [hK]
    exact ⟨fun _ => hn, fun _ _ => ⟨⟨size, n, hi⟩, hr⟩⟩

/-- A CONFIG that succeeds does not keep the filter. -/
theorem keepsFilter_config_eq_false {mMax size : Word} {n : Word32} (hsize : size ≠ 0) (hn : 0 < n.toInt)
    (hcap : ¬ mMax < size) : keepsFilter mMax (.config size n) = false := by
  have hn' : ¬ n.toInt ≤ 0 := Int.not_le.mpr hn
  simp only [keepsFilter, hsize, hn', hcap, or_self, decide_false]

/-- ADD and ADDH only set bits (R113). -/
theorem read_addedBits_of_read {s : State} {idx : Nat} (h1 h2 : Word) (h : s.BITS.read idx = true) :
    (addedBits s h1 h2).read idx = true := by
  rw [read_addedBits, h, Bool.true_or]

/-- Settles O19: of the commands that keep the filter only ADD and ADDH write the array, and they only set bits. -/
theorem onlyClearAndConfigClearBits : Obligations.OnlyClearAndConfigClearBits := by
  intro i s t h hkeep idx hread
  rcases exec_cases h with ⟨e, rfl⟩ | ⟨size, n, rfl, hsize, hn, hcap, -⟩ | ⟨rfl, -, -⟩ | ⟨swap, seed, key, -, rfl⟩ |
    ⟨h1, h2, -, -, -, rfl⟩ | ⟨h1, h2, -, -, -, rfl⟩
  · exact hread
  · simp [keepsFilter_config_eq_false hsize hn hcap] at hkeep
  · cases hkeep
  · exact hread
  · exact read_addedBits_of_read h1 h2 hread
  · exact hread

end Sys2Proof.Machine
end

section
/-! PROOFS. Noninterference (R10, R23): states that agree in the filter, `M_MAX` and the program are answered alike,
whatever their working registers, counters and past responses. -/

namespace Sys2Proof.Machine

/-- The two states differ at most in the working registers, the free values' counter and the past responses. -/
structure SeenAlike (s t : State) : Prop where
  M : t.M = s.M
  K : t.K = s.K
  BITS : t.BITS = s.BITS
  mMax : t.mMax = s.mMax
  program : t.program = s.program
  index : t.index = s.index

/-- Run from `s` and from `t`, both outcomes are the fault, or both answer states that are seen alike, with the same
new responses. -/
def AnsweredAlike (s t : State) (o o' : Host.Outcome State Fault Refusal) : Prop :=
  (o = .fault .umodByZero ∧ o' = .fault .umodByZero) ∨
  ∃ s' t' new, o = .next s' ∧ o' = .next t' ∧ SeenAlike s' t' ∧
    s'.responses = s.responses ++ new ∧ t'.responses = t.responses ++ new

/-! ### Each named update of the state keeps the relation -/

theorem SeenAlike.respond {s t : State} (h : SeenAlike s t) (r : Response) : SeenAlike (respond r s) (respond r t) :=
  ⟨h.M, h.K, h.BITS, h.mMax, h.program, h.index⟩

theorem SeenAlike.raise {s t : State} (h : SeenAlike s t) (e : ErrorCode) : SeenAlike (raise e s) (raise e t) :=
  h.respond (.err e)

theorem SeenAlike.withBits {s t : State} (h : SeenAlike s t) (b : Memory) :
    SeenAlike { s with BITS := b } { t with BITS := b } :=
  ⟨h.M, h.K, rfl, h.mMax, h.program, h.index⟩

theorem SeenAlike.withFilter {s t : State} (h : SeenAlike s t) (M : Word) (K : Word32) (b : Memory) :
    SeenAlike { s with M := M, K := K, BITS := b } { t with M := M, K := K, BITS := b } :=
  ⟨rfl, rfl, rfl, h.mMax, h.program, h.index⟩

theorem SeenAlike.powerOnReset {s t : State} (h : SeenAlike s t) : SeenAlike (powerOnReset s) (powerOnReset t) :=
  ⟨rfl, rfl, rfl, h.mMax, h.program, h.index⟩

theorem SeenAlike.advance {s t : State} (h : SeenAlike s t) : SeenAlike s.advance t.advance :=
  ⟨h.M, h.K, h.BITS, h.mMax, h.program, congrArg (· + 1) h.index⟩

theorem SeenAlike.fetch {s t : State} (h : SeenAlike s t) : t.fetch = s.fetch := by
  unfold State.fetch
  rw [h.program, h.index]

theorem SeenAlike.addedBits {s t : State} (h : SeenAlike s t) (h1 h2 : Word) :
    addedBits t h1 h2 = addedBits s h1 h2 := by
  unfold Machine.addedBits
  rw [h.M, h.K, h.BITS]
  exact addLoop_bits_congr _ _ _ _ rfl rfl rfl

/-! ### How the answers are built -/

theorem answeredAlike_respond {s t u v : State} (r : Response) (h : SeenAlike u v)
    (hu : u.responses = s.responses) (hv : v.responses = t.responses) :
    AnsweredAlike s t (.next (respond r u)) (.next (respond r v)) :=
  .inr ⟨_, _, [r], rfl, rfl, h.respond r, by rw [respond_responses, hu], by rw [respond_responses, hv]⟩

theorem answeredAlike_raise {s t : State} (e : ErrorCode) (h : SeenAlike s t) :
    AnsweredAlike s t (.next (raise e s)) (.next (raise e t)) :=
  answeredAlike_respond (.err e) h rfl rfl

theorem answeredAlike_powerOnReset {s t : State} (h : SeenAlike s t) :
    AnsweredAlike s t (.next (powerOnReset s)) (.next (powerOnReset t)) :=
  .inr ⟨_, _, [], rfl, rfl, h.powerOnReset, by simp, by simp⟩

section
variable {s t : State} {o o' : Host.Outcome State Fault Refusal}

theorem AnsweredAlike.whenConfigured (hst : SeenAlike s t) (h : AnsweredAlike s t o o') :
    AnsweredAlike s t (whenConfigured s o) (whenConfigured t o') := by
  unfold Machine.whenConfigured
  rw [hst.K]
  split_ifs
  · exact answeredAlike_raise _ hst
  · exact h

theorem AnsweredAlike.whenDivisible (hst : SeenAlike s t) (h : AnsweredAlike s t o o') :
    AnsweredAlike s t (whenDivisible s o) (whenDivisible t o') := by
  unfold Machine.whenDivisible
  rw [hst.K, hst.M]
  split_ifs
  · exact .inl ⟨rfl, rfl⟩
  · exact h

theorem AnsweredAlike.advanceNext (h : AnsweredAlike s t o o') :
    AnsweredAlike s t (advanceNext o) (advanceNext o') := by
  rcases h with ⟨rfl, rfl⟩ | ⟨s', t', new, rfl, rfl, hst, hs, ht⟩
  · exact .inl ⟨rfl, rfl⟩
  · exact .inr ⟨s'.advance, t'.advance, new, rfl, rfl, hst.advance, hs, ht⟩

end

/-! ### The commands and the step -/

theorem execConfig_alike {s t : State} (h : SeenAlike s t) (size : Word) (n : Word32) :
    AnsweredAlike s t (execConfig size n s) (execConfig size n t) := by
  have hcap : t.mMax < size ↔ s.mMax < size := by rw [h.mMax]
  simp only [execConfig, hcap]
  split_ifs
  · exact answeredAlike_raise _ h
  · exact answeredAlike_raise _ h
  · exact answeredAlike_respond _ (h.withFilter size n Memory.allFalse) rfl rfl

theorem execClear_alike {s t : State} (h : SeenAlike s t) : AnsweredAlike s t (execClear s) (execClear t) :=
  .whenConfigured h (answeredAlike_respond _ (h.withBits Memory.allFalse) rfl rfl)

theorem execHash_alike {s t : State} (h : SeenAlike s t) (swap : Bool) (seed : Word32) (key : Key) :
    AnsweredAlike s t (execHash swap seed key s) (execHash swap seed key t) := by
  rw [execHash_eq, execHash_eq]
  exact answeredAlike_respond _ h rfl rfl

theorem execAddh_alike {s t : State} (h : SeenAlike s t) (h1 h2 : Word) :
    AnsweredAlike s t (execAddh h1 h2 s) (execAddh h1 h2 t) := by
  rw [execAddh_eq, execAddh_eq, h.M, h.K, h.BITS, h.addedBits]
  have hbits := h.withFilter s.M s.K (addedBits s h1 h2)
  exact .whenConfigured h (.whenDivisible h (answeredAlike_respond _ hbits rfl rfl))

theorem execExistsh_alike {s t : State} (h : SeenAlike s t) (h1 h2 : Word) :
    AnsweredAlike s t (execExistsh h1 h2 s) (execExistsh h1 h2 t) := by
  rw [execExistsh_eq, execExistsh_eq, h.M, h.K, h.BITS]
  exact .whenConfigured h (.whenDivisible h (answeredAlike_respond _ h rfl rfl))

/-- R10, R23, for one command: the keyed ones hash their key alike, whatever the working registers hold. -/
theorem exec_alike {s t : State} (h : SeenAlike s t) (i : Instr) : AnsweredAlike s t (exec i s) (exec i t) := by
  cases i with
  | config size n => exact execConfig_alike h size n
  | clear => exact execClear_alike h
  | hash swap seed key => exact execHash_alike h swap seed key
  | add key =>
    simp only [exec, execAdd_eq]
    exact execAddh_alike h _ _
  | existsKey key =>
    simp only [exec, execExists_eq]
    exact execExistsh_alike h _ _
  | addh h1 h2 => exact execAddh_alike h h1 h2
  | existsh h1 h2 => exact execExistsh_alike h h1 h2

theorem runPacket_alike {s t : State} (h : SeenAlike s t) (p : Packet) :
    AnsweredAlike s t (runPacket p s) (runPacket p t) := by
  unfold runPacket
  rcases decode p with e | i
  · exact answeredAlike_raise _ h
  · exact exec_alike h i

theorem runEvent_alike {s t : State} (h : SeenAlike s t) (e : HostEvent) :
    AnsweredAlike s t (runEvent e s) (runEvent e t) := by
  cases e with
  | packet p => exact runPacket_alike h p
  | powerOn => exact answeredAlike_powerOnReset h

theorem step_alike {s t : State} (h : SeenAlike s t) : AnsweredAlike s t (step s) (step t) := by
  unfold step runNext
  rw [h.fetch]
  rcases s.fetch with _ | e
  · exact .inr ⟨s, t, [], rfl, rfl, h, by simp, by simp⟩
  · exact (runEvent_alike h e).advanceNext

/-- Settles O24: `SeenAlike` is the obligation's hypothesis, and is kept by the step. -/
theorem responsesDependOnlyOnTheFilter : Obligations.ResponsesDependOnlyOnTheFilter := by
  rintro s t ⟨hM, hK, hB⟩ hmax hprogram hindex
  rcases step_alike ⟨hM, hK, hB, hmax, hprogram, hindex⟩ with hfault | ⟨s', t', new, hs, ht, h, hnew, hnew'⟩
  · exact .inl hfault
  · exact .inr ⟨s', t', new, hs, ht, ⟨h.M, h.K, h.BITS⟩, h.mMax, h.program, h.index, hnew, hnew'⟩

end Sys2Proof.Machine
end

section
/-! PROOFS. One bit write (R31, R32) and the one fault (R38). -/

namespace Sys2Proof.Machine

/-! ### One bit -/

/-- Settles O31: the two cases of `read_write`. -/
theorem bitWriteChangesOneBit : Obligations.BitWriteChangesOneBit := by
  intro b idx v
  constructor
  · rw [read_write, if_pos rfl]
  · intro j hj
    rw [read_write, if_neg hj]

/-! ### The one fault -/

theorem probeCount_pos_iff (K : Word32) : 0 < probeCount K ↔ 1 ≤ K.toInt :=
  Int.pos_iff_toNat_pos.symm

/-- A positive probe count passes the check for an unconfigured engine, and a zero modulus fails the next one. -/
theorem whenChecked_divides_by_zero {s : State} (hcount : 0 < probeCount s.K) (hM : s.M = 0)
    (body : Host.Outcome State Fault Refusal) :
    whenConfigured s (whenDivisible s body) = .fault .umodByZero := by
  have hK : s.K ≠ 0 := by
    intro hK
    simp [hK, probeCount] at hcount
  rw [whenConfigured, if_neg hK, whenDivisible, if_pos ⟨hcount, hM⟩]

theorem exec_divides_by_zero {i : Instr} {s : State} (hi : probes i = true) (hcount : 0 < probeCount s.K)
    (hM : s.M = 0) : exec i s = .fault .umodByZero := by
  cases i with
  | config | clear | hash => cases hi
  | add key => exact whenChecked_divides_by_zero hcount hM _
  | existsKey key => exact whenChecked_divides_by_zero hcount hM _
  | addh h1 h2 => exact whenChecked_divides_by_zero hcount hM _
  | existsh h1 h2 => exact whenChecked_divides_by_zero hcount hM _

/-- Settles O18: a command that answers does not probe without a modulus, and one that does not answer faults. -/
theorem onlyAMissingModulusFaults : Obligations.OnlyAMissingModulusFaults := by
  intro i s
  rw [← probeCount_pos_iff]
  rcases exec_answers_or_divides_by_zero i s with ⟨t, ht⟩ | ⟨hi, hcount, hM, hfault⟩
  · have hdivisible : ¬ (probes i = true ∧ 0 < probeCount s.K ∧ s.M = 0) := by
      rintro ⟨hi, hcount, hM⟩
      simp [exec_divides_by_zero hi hcount hM] at ht
    rw [ht]
    exact ⟨iff_of_false nofun hdivisible, nofun⟩
  · rw [hfault]
    exact ⟨iff_of_true rfl ⟨hi, hcount, hM⟩, nofun⟩

end Sys2Proof.Machine
end

section
/-! PROOFS. The key read as a stream: the tail as R75's loops, the blocks in increasing offset order (R33, R79). -/

namespace Sys2Proof.Machine

/-! ### The tail as R75's loops -/

theorem leNat_append_singleton (bs : List Byte) (b : Byte) :
    leNat (bs ++ [b]) = 2 ^ (8 * bs.length) * b.toNat + leNat bs := by
  induction bs with
  | nil => simp [leNat]
  | cons a bs ih =>
    rw [List.cons_append, leNat, leNat, ih, List.length_cons, Nat.mul_succ, Nat.pow_add]
    ring

/-- R34: one more byte of a lane is exclusive-or'ed in at the next free position. -/
theorem le64_append_singleton (bs : List Byte) (b : Byte) :
    le64 (bs ++ [b]) = le64 bs ^^^ (b.setWidth 64 <<< (8 * bs.length)) := by
  have hlt : leNat bs < 2 ^ (8 * bs.length) := by
    rw [Nat.pow_mul]
    exact leNat_lt bs
  apply BitVec.eq_of_getLsbD_eq
  intro i hi
  simp only [le64, leNat_append_singleton, BitVec.getLsbD_xor, BitVec.getLsbD_ofNat, BitVec.getLsbD_shiftLeft,
    BitVec.getLsbD_setWidth, Nat.testBit_two_pow_mul_add _ hlt, hi, decide_true, Bool.true_and]
  split_ifs with hbit
  · simp [hbit]
  · have hhigh : (leNat bs).testBit i = false :=
      Nat.testBit_lt_two_pow (hlt.trans_le (Nat.pow_le_pow_right (by decide) (by omega)))
    have hoff : i - 8 * bs.length < 64 := by omega
    simp [hbit, hhigh, hoff, BitVec.getLsbD]

/-- R75: the exclusive ors of shifted bytes assemble a lane. -/
theorem foldl_tailByte (t : List Byte) {n : Nat} (hn : n ≤ t.length) :
    (List.range n).foldl (fun k j => k ^^^ (tailByte t j <<< (8 * j))) 0 = le64 (t.take n) := by
  induction n with
  | zero => rfl
  | succ n ih =>
    have hlt : n < t.length := hn
    have hbyte : tailByte t n = t[n].setWidth 64 := by simp [tailByte, hlt]
    have hlen : (t.take n).length = n := List.length_take_of_le hlt.le
    rw [List.range_succ, List.foldl_append, ih hlt.le, List.take_succ_eq_append_getElem hlt, le64_append_singleton,
      hlen, List.foldl_cons, List.foldl_nil, hbyte]

theorem foldl_tailLane1 (t : List Byte) :
    (List.range' 0 (min t.length 8)).foldl (fun k j => k ^^^ (tailByte t j <<< (8 * j))) 0 = tailLane1 t := by
  rw [← List.range_eq_range', foldl_tailByte t (Nat.min_le_left ..), tailLane1, Nat.min_comm, ← List.take_eq_take_min]

theorem foldl_tailLane2 (t : List Byte) :
    (List.range' 8 (t.length - 8)).foldl (fun k j => k ^^^ (tailByte t j <<< (8 * (j - 8)))) 0 = tailLane2 t := by
  have hbyte (j : Nat) : tailByte t (8 + j) = tailByte (t.drop 8) j := by simp [tailByte]
  have hlane := foldl_tailByte (t.drop 8) (Nat.le_refl _)
  rw [List.take_length, List.length_drop] at hlane
  rw [tailLane2, List.range'_eq_map_range, List.foldl_map]
  simpa only [hbyte, Nat.add_sub_cancel_left] using hlane

/-- R75: lanes assembled at once and folded are the pseudocode's tail, whatever its length. -/
theorem tailFold_eq_tailBySpec (c : MixConst) (h1 h2 : Word) (t : List Byte) :
    tailFold c t.length h1 h2 (tailLane1 t) (tailLane2 t) = tailBySpec c h1 h2 t := by
  simp only [tailFold, tailBySpec, foldl_tailLane1, foldl_tailLane2, ge_iff_le]

/-! ### The blocks by offset and by what is left of the key -/

theorem memRead64_drop (key : Key) (n a : Nat) : memRead64 (key.drop n) a = memRead64 key (n + a) := by
  rw [memRead64, memRead64, List.drop_drop]

/-- The accumulators after the first `n` blocks of the key, read by offset (R79). -/
def blocksAt (c : MixConst) (key : Key) (n : Nat) (h : Word × Word) : Word × Word :=
  (List.range n).foldl
    (fun h b => blockRound c h.1 h.2 (memRead64 key (16 * b)) (memRead64 key (16 * b + 8))) h

theorem mixBlocks_eq_blocksAt (c : MixConst) (key : Key) (h : Word × Word) :
    mixBlocks c key h = blocksAt c key ((keyLen key).toNat / 16) h := rfl

/-- The first block, and then the blocks of what is left. -/
theorem blocksAt_succ (c : MixConst) (key : Key) (n : Nat) (h : Word × Word) :
    blocksAt c key (n + 1) h =
      blocksAt c (key.drop 16) n (blockRound c h.1 h.2 (memRead64 key 0) (memRead64 key 8)) := by
  have hoff (b : Nat) : 16 * (b + 1) = 16 + 16 * b := by ring
  simp only [blocksAt, List.range_succ_eq_map, List.foldl_cons, List.foldl_map, memRead64_drop, Nat.succ_eq_add_one,
    hoff, Nat.add_assoc, Nat.mul_zero, Nat.zero_add]

theorem absorb_eq (c : MixConst) (n : Nat) (key : Key) (h : Word × Word) :
    absorb c n key h = tailBySpec c (blocksAt c key n h).1 (blocksAt c key n h).2 (key.drop (16 * n)) := by
  induction n generalizing key h with
  | zero => rfl
  | succ n ih =>
    rw [absorb, ih, blocksAt_succ, List.drop_drop, Nat.mul_succ, Nat.add_comm 16]
    rfl

/-! ### The key's length and its tail -/

theorem keyLen_toNat {key : Key} (hkey : key.length < 2 ^ 64) : (keyLen key).toNat = key.length := by
  rw [keyLen, BitVec.toNat_ofNat, Nat.mod_eq_of_lt hkey]

/-- R75: the tail is all that the full blocks leave. -/
theorem tailBytes_eq_drop {key : Key} (hkey : key.length < 2 ^ 64) :
    tailBytes key = key.drop (16 * (key.length / 16)) := by
  have hrest : (key.drop (16 * (key.length / 16))).length ≤ key.length % 16 := by
    rw [List.length_drop]
    omega
  rw [tailBytes, keyLen_toNat hkey, List.take_of_length_le hrest]

/-- Settles O43: block by block `blocksAt` reads what `absorb` takes off the front, and both leave the same tail. -/
theorem mh3ReadsTheKeyAsAStream : Obligations.Mh3ReadsTheKeyAsAStream := by
  intro c key seed swap hkey
  have hlen : BitVec.ofNat 64 key.length = keyLen key := rfl
  simp only [mh3, streamHash, absorb_eq, mixBlocks_eq_blocksAt, tailFold_eq_tailBySpec, tailBytes_eq_drop hkey,
    keyLen_toNat hkey, hlen]

end Sys2Proof.Machine
end

section
/-! PROOFS. Packets and commands (R51 to R56): fields as numbers and back, the decoder's inversion lemma, and both
round trips. -/

namespace Sys2Proof.Machine

/-! ### Fields as numbers, and back -/

/-- R53: a field that is no wider than the register loses nothing in it. -/
theorem toNat_ofNat_leNat {w : Nat} {f : List Byte} (hw : 8 * f.length ≤ w) :
    (BitVec.ofNat w (leNat f)).toNat = leNat f := by
  have hlt : leNat f < 2 ^ w := calc
    leNat f < 256 ^ f.length := leNat_lt f
    _ = 2 ^ (8 * f.length) := (Nat.pow_mul 2 8 _).symm
    _ ≤ 2 ^ w := Nat.pow_le_pow_right (by decide) hw
  rw [BitVec.toNat_ofNat, Nat.mod_eq_of_lt hlt]

theorem toNat_le64 {f : List Byte} (hf : f.length = 8) : (le64 f).toNat = leNat f :=
  toNat_ofNat_leNat (Nat.mul_le_mul_left 8 hf.le)

theorem toNat_ofNat32_leNat {f : List Byte} (hf : f.length = 4) : (BitVec.ofNat 32 (leNat f)).toNat = leNat f :=
  toNat_ofNat_leNat (Nat.mul_le_mul_left 8 hf.le)

theorem bytes64_le64 {f : List Byte} (hf : f.length = 8) : bytes64 (le64 f) = f := by
  rw [bytes64, toNat_le64 hf, ← hf, leBytes_leNat]

theorem bytes32_ofNat_leNat {f : List Byte} (hf : f.length = 4) : bytes32 (BitVec.ofNat 32 (leNat f)) = f := by
  rw [bytes32, toNat_ofNat32_leNat hf, ← hf, leBytes_leNat]

theorem le64_bytes64 (v : Word) : le64 (bytes64 v) = v := ofNat_leNat_bytes64 v

/-! ### Fields of a packet -/

theorem length_fieldBytes {p : Packet} {off n : Nat} (h : off + n ≤ p.length) : (fieldBytes p off n).length = n := by
  rw [fieldBytes, List.length_take, List.length_drop]
  omega

/-- A field that reaches the packet's end is all that is left of it. -/
theorem fieldBytes_eq_drop {p : Packet} {off n : Nat} (h : p.length ≤ off + n) : fieldBytes p off n = p.drop off :=
  List.take_of_length_le (by rw [List.length_drop]; omega)

theorem fieldBytes_append_drop (p : Packet) (off n : Nat) : fieldBytes p off n ++ p.drop (off + n) = p.drop off := by
  rw [fieldBytes, ← List.drop_drop, List.take_append_drop]

theorem bytes64_field64 {p : Packet} {off : Nat} (h : off + 8 ≤ p.length) :
    bytes64 (field64 p off) = fieldBytes p off 8 :=
  bytes64_le64 (length_fieldBytes h)

theorem bytes32_field32 {p : Packet} {off : Nat} (h : off + 4 ≤ p.length) :
    bytes32 (field32 p off) = fieldBytes p off 4 :=
  bytes32_ofNat_leNat (length_fieldBytes h)

theorem toNat_field64 (p : Packet) (off : Nat) : (field64 p off).toNat = leNat ((p.drop off).take 8) := by
  have hlen : ((p.drop off).take 8).length ≤ 8 := List.length_take_le 8 _
  exact toNat_ofNat_leNat (Nat.mul_le_mul_left 8 hlen)

/-! ### The decoder -/

/-- Everything the decoder accepts: one of R52's opcode bytes, and the length R55 expects. A packet of that length
is not truncated. -/
theorem decode_eq_ok_iff {p : Packet} {i : Instr} :
    decode p = .ok i ↔
      ∃ op rest, p = Opcode.byte op :: rest ∧ p.length = op.format.expectedLength p ∧ operands op p = i := by
  constructor
  · intro h
    cases p with
    | nil => cases h
    | cons b rest =>
      rcases hop : Opcode.ofByte b with _ | op
      · simp [decode, hop] at h
      · simp only [decode, hop] at h
        split_ifs at h with hshort hlen
        cases h
        exact ⟨op, rest, by rw [byte_of_ofByte hop], not_not.mp hlen, rfl⟩
  · rintro ⟨op, rest, rfl, hlen, rfl⟩
    have hlong : ¬ (op.byte :: rest).length < op.format.fixedLength := by
      rw [hlen, Format.expectedLength]
      omega
    simp only [decode, ofByte_byte]
    rw [if_neg hlong, if_neg (not_not.mpr hlen)]

@[simp] theorem opcode_operands (op : Opcode) (p : Packet) : (operands op p).opcode = op := by
  cases op <;> rfl

theorem length_drop_fixedLength {f : Format} {p : Packet} (hlen : p.length = f.expectedLength p) :
    (p.drop f.fixedLength).length = f.klen p := by
  rw [List.length_drop, hlen, Format.expectedLength, Nat.add_sub_cancel_left]

/-! ### From the packet to the command and back -/

/-- R33: the decoder reads `KLEN` from 8 bytes, so that every key it finds fits. -/
theorem wellFormed_operands {op : Opcode} {p : Packet} (hlen : p.length = op.format.expectedLength p) :
    (operands op p).wellFormed = true := by
  have hkey := length_drop_fixedLength hlen
  have hfits {off n : Nat} (h : (p.drop n).length = (field64 p off).toNat) : Key.fits (p.drop n) = true := by
    rw [Key.fits, h]
    exact decide_eq_true (field64 p off).isLt
  cases op with
  | config => rfl
  | clear => rfl
  | hash swap => exact hfits hkey
  | add => exact hfits hkey
  | existsKey => exact hfits hkey
  | addh => rfl
  | existsh => rfl

/-- R54: `KLEN` and the key that follows it. -/
theorem leBytes_klen_append_key {p : Packet} {off : Nat} (hlong : off + 8 ≤ p.length)
    (hkey : (p.drop (off + 8)).length = (field64 p off).toNat) :
    leBytes 8 (p.drop (off + 8)).length ++ p.drop (off + 8) = p.drop off := by
  have hklen : leBytes 8 (p.drop (off + 8)).length = fieldBytes p off 8 := by
    rw [hkey]
    exact bytes64_field64 hlong
  rw [hklen, fieldBytes_append_drop]

/-- R54: two 8-byte fields to the packet's end. -/
theorem bytes64_pair_append {p : Packet} (hlen : p.length = 17) :
    bytes64 (field64 p 1) ++ bytes64 (field64 p 9) = p.drop 1 := by
  rw [bytes64_field64 (by omega), bytes64_field64 (by omega), fieldBytes_eq_drop (off := 9) (by omega),
    fieldBytes_append_drop]

/-- The fields the decoder reads are, written again, all the packet's bytes after the opcode. -/
theorem operandBytes_operands {op : Opcode} {p : Packet} (hlen : p.length = op.format.expectedLength p) :
    (operands op p).operandBytes = p.drop 1 := by
  have hlong : op.format.fixedLength ≤ p.length := by
    rw [hlen, Format.expectedLength]
    omega
  have hkey := length_drop_fixedLength hlen
  cases op with
  | config =>
    have h13 : p.length = 13 := hlen
    simp only [operands, Instr.operandBytes]
    rw [bytes64_field64 (by omega), bytes32_field32 (by omega), fieldBytes_eq_drop (off := 9) (by omega),
      fieldBytes_append_drop]
  | clear =>
    have h1 : p.length = 1 := hlen
    exact (List.drop_eq_nil_of_le h1.le).symm
  | hash swap =>
    have h13 : 13 ≤ p.length := hlong
    simp only [operands, Instr.operandBytes]
    rw [bytes32_field32 (by omega), leBytes_klen_append_key (off := 5) h13 hkey, fieldBytes_append_drop]
  | add => exact leBytes_klen_append_key (off := 1) hlong hkey
  | existsKey => exact leBytes_klen_append_key (off := 1) hlong hkey
  | addh => exact bytes64_pair_append hlen
  | existsh => exact bytes64_pair_append hlen

/-- Settles O2: the opcode byte and the operands that the decoder finds are written back where it found them. -/
theorem encodeOfDecodeIsThePacket : Obligations.EncodeOfDecodeIsThePacket := by
  intro p i h
  obtain ⟨op, rest, hp, hlen, rfl⟩ := decode_eq_ok_iff.mp h
  refine ⟨wellFormed_operands hlen, ?_⟩
  rw [encode, opcode_operands, operandBytes_operands hlen, hp, List.drop_one, List.tail_cons]

/-! ### Packets made of fields -/

theorem field64_first {f : List Byte} (b : Byte) (g : List Byte) (hf : f.length = 8) :
    field64 (b :: (f ++ g)) 1 = le64 f := by
  simp [field64, le64, fieldBytes, hf]

theorem field64_second {f g : List Byte} (b : Byte) (hf : f.length = 8) (hg : g.length = 8) :
    field64 (b :: (f ++ g)) 9 = le64 g := by
  simp [field64, le64, fieldBytes, hf, List.take_of_length_le hg.le]

theorem length_pair_fields {f g : List Byte} (b : Byte) (hf : f.length = 8) (hg : g.length = 8) :
    (b :: (f ++ g)).length = Format.expectedLength .FH (b :: (f ++ g)) := by
  simp [Format.expectedLength, Format.fixedLength, Format.klen, hf, hg]

theorem length_key_fields {g key : List Byte} (b : Byte) (hg : g.length = 8) (hkey : leNat g = key.length) :
    (b :: (g ++ key)).length = Format.expectedLength .FK (b :: (g ++ key)) := by
  have hklen : (field64 (b :: (g ++ key)) 1).toNat = key.length := by
    rw [field64_first b key hg, toNat_le64 hg, hkey]
  simp only [Format.expectedLength, Format.fixedLength, Format.klen, hklen, List.length_cons, List.length_append, hg]
  omega

theorem length_seed_key_fields {f g key : List Byte} (b : Byte) (hf : f.length = 4) (hg : g.length = 8)
    (hkey : leNat g = key.length) :
    (b :: (f ++ (g ++ key))).length = Format.expectedLength .FS (b :: (f ++ (g ++ key))) := by
  have hfield : field64 (b :: (f ++ (g ++ key))) 5 = le64 g := by simp [field64, le64, fieldBytes, hf, hg]
  have hklen : (field64 (b :: (f ++ (g ++ key))) 5).toNat = key.length := by rw [hfield, toNat_le64 hg, hkey]
  simp only [Format.expectedLength, Format.fixedLength, Format.klen, hklen, List.length_cons, List.length_append, hf,
    hg]
  omega

theorem decode_config_fields {f g : List Byte} (hf : f.length = 8) (hg : g.length = 4) :
    decode (0x01 :: (f ++ g)) = .ok (.config (le64 f) (BitVec.ofNat 32 (leNat g))) := by
  have hfield : field32 (0x01 :: (f ++ g)) 9 = BitVec.ofNat 32 (leNat g) := by
    simp [field32, fieldBytes, hf, List.take_of_length_le hg.le]
  refine decode_eq_ok_iff.mpr ⟨.config, f ++ g, rfl, ?_, congrArg₂ Instr.config (field64_first _ g hf) hfield⟩
  simp [Opcode.format, Format.expectedLength, Format.fixedLength, Format.klen, hf, hg]

theorem decode_addh_fields {f g : List Byte} (hf : f.length = 8) (hg : g.length = 8) :
    decode (0x30 :: (f ++ g)) = .ok (.addh (le64 f) (le64 g)) :=
  decode_eq_ok_iff.mpr ⟨.addh, f ++ g, rfl, length_pair_fields _ hf hg,
    congrArg₂ Instr.addh (field64_first _ g hf) (field64_second _ hf hg)⟩

theorem decode_existsh_fields {f g : List Byte} (hf : f.length = 8) (hg : g.length = 8) :
    decode (0x31 :: (f ++ g)) = .ok (.existsh (le64 f) (le64 g)) :=
  decode_eq_ok_iff.mpr ⟨.existsh, f ++ g, rfl, length_pair_fields _ hf hg,
    congrArg₂ Instr.existsh (field64_first _ g hf) (field64_second _ hf hg)⟩

theorem decode_hash_fields (swap : Bool) {f g key : List Byte} (hf : f.length = 4) (hg : g.length = 8)
    (hkey : leNat g = key.length) :
    decode ((Opcode.hash swap).byte :: (f ++ (g ++ key))) =
      .ok (.hash swap (BitVec.ofNat 32 (leNat f)) key) := by
  have hfield : field32 ((Opcode.hash swap).byte :: (f ++ (g ++ key))) 1 = BitVec.ofNat 32 (leNat f) := by
    simp [field32, fieldBytes, hf]
  have hdrop : (f ++ (g ++ key)).drop 12 = key := by
    rw [← List.append_assoc]
    exact List.drop_left' (by rw [List.length_append, hf, hg])
  exact decode_eq_ok_iff.mpr ⟨.hash swap, f ++ (g ++ key), rfl, length_seed_key_fields _ hf hg hkey,
    congrArg₂ (Instr.hash swap) hfield hdrop⟩

theorem decode_add_fields {g key : List Byte} (hg : g.length = 8) (hkey : leNat g = key.length) :
    decode (0x20 :: (g ++ key)) = .ok (.add key) :=
  decode_eq_ok_iff.mpr ⟨.add, g ++ key, rfl, length_key_fields _ hg hkey,
    congrArg Instr.add (List.drop_left' hg)⟩

theorem decode_existsKey_fields {g key : List Byte} (hg : g.length = 8) (hkey : leNat g = key.length) :
    decode (0x21 :: (g ++ key)) = .ok (.existsKey key) :=
  decode_eq_ok_iff.mpr ⟨.existsKey, g ++ key, rfl, length_key_fields _ hg hkey,
    congrArg Instr.existsKey (List.drop_left' hg)⟩

/-- R33: `KLEN` reads back the length of a key that fits. -/
theorem leNat_leBytes_klen {key : Key} (hkey : Key.fits key = true) : leNat (leBytes 8 key.length) = key.length := by
  have hlt : key.length < 2 ^ 64 := of_decide_eq_true hkey
  rw [leNat_leBytes]
  exact Nat.mod_eq_of_lt hlt

/-- Settles O1: each format's packet decodes field by field, and a field's bytes read back the value they carry. -/
theorem decodeOfEncodeIsTheCommand : Obligations.DecodeOfEncodeIsTheCommand := by
  intro i hi
  cases i with
  | config size n =>
    have h := decode_config_fields (length_bytes64 size) (length_bytes32 n)
    rwa [le64_bytes64, ofNat_leNat_bytes32] at h
  | clear => rfl
  | hash swap seed key =>
    have h := decode_hash_fields swap (length_bytes32 seed) (length_leBytes 8 _) (leNat_leBytes_klen hi)
    rwa [ofNat_leNat_bytes32] at h
  | add key => exact decode_add_fields (length_leBytes 8 _) (leNat_leBytes_klen hi)
  | existsKey key => exact decode_existsKey_fields (length_leBytes 8 _) (leNat_leBytes_klen hi)
  | addh h1 h2 =>
    have h := decode_addh_fields (length_bytes64 h1) (length_bytes64 h2)
    rwa [le64_bytes64, le64_bytes64] at h
  | existsh h1 h2 =>
    have h := decode_existsh_fields (length_bytes64 h1) (length_bytes64 h2)
    rwa [le64_bytes64, le64_bytes64] at h

end Sys2Proof.Machine
end

section
/-! PROOFS. What the decoder accepts, and with what values (R53, R55); the response packets (R59). -/

namespace Sys2Proof.Machine

/-! ### Legal packets -/

theorem fits_klen_iff {p : Packet} (n off : Nat) :
    (n ≤ p.length ∧ p.length = n + leNat ((p.drop off).take 8)) ↔ p.length = n + (field64 p off).toNat := by
  rw [toNat_field64]
  omega

/-- R55: behind a defined opcode byte, a packet is legal when its length is the expected one. -/
theorem legalPacket_byte (op : Opcode) (rest : List Byte) :
    legalPacket (op.byte :: rest) = decide ((op.byte :: rest).length = op.format.expectedLength (op.byte :: rest)) := by
  cases op with
  | config => rfl
  | clear => rfl
  | hash swap => cases swap <;> exact decide_eq_decide.mpr (fits_klen_iff 13 5)
  | add => exact decide_eq_decide.mpr (fits_klen_iff 9 1)
  | existsKey => exact decide_eq_decide.mpr (fits_klen_iff 9 1)
  | addh => rfl
  | existsh => rfl

/-- R52: the list of opcode bytes in `legalPacket` is the decoder's. -/
theorem exists_byte_of_legalPacket {p : Packet} (h : legalPacket p = true) : ∃ op rest, p = Opcode.byte op :: rest := by
  cases p with
  | nil => cases h
  | cons b rest =>
    have hbyte {op : Opcode} (hb : b.toNat = op.byte.toNat) : ∃ op rest', b :: rest = Opcode.byte op :: rest' :=
      ⟨op, rest, by rw [BitVec.eq_of_toNat_eq hb]⟩
    simp only [legalPacket] at h
    split at h
    next hb => exact hbyte (op := .config) hb
    next hb => exact hbyte (op := .clear) hb
    next hb => exact hbyte (op := .hash false) hb
    next hb => exact hbyte (op := .hash true) hb
    next hb => exact hbyte (op := .add) hb
    next hb => exact hbyte (op := .existsKey) hb
    next hb => exact hbyte (op := .addh) hb
    next hb => exact hbyte (op := .existsh) hb
    next => cases h

/-- Settles O3: both sides ask for a defined opcode byte and the expected length. -/
theorem decodeAcceptsExactlyLegalPackets : Obligations.DecodeAcceptsExactlyLegalPackets := by
  intro p
  constructor
  · rintro ⟨i, h⟩
    obtain ⟨op, rest, rfl, hlen, -⟩ := decode_eq_ok_iff.mp h
    rw [legalPacket_byte, decide_eq_true hlen]
  · intro h
    obtain ⟨op, rest, rfl⟩ := exists_byte_of_legalPacket h
    rw [legalPacket_byte] at h
    exact ⟨_, decode_eq_ok_iff.mpr ⟨op, rest, rfl, of_decide_eq_true h, rfl⟩⟩

/-! ### The values of fields -/

/-- R53's sum is the model's little-endian reading. -/
theorem fieldValue_eq_leNat (f : List Byte) : fieldValue f = leNat f := by
  induction f with
  | nil => rfl
  | cons b f ih =>
    have hshift (v j : Nat) : v * 2 ^ (8 * (j + 1)) = 256 * (v * 2 ^ (8 * j)) := by ring
    rw [leNat, ← ih, fieldValue, fieldValue, List.length_cons, List.range_succ_eq_map, List.map_cons, List.sum_cons,
      List.map_map, ← List.sum_map_mul_left]
    simp [Function.comp_def, hshift]

theorem toNat_le64_eq_fieldValue {f : List Byte} (hf : f.length = 8) : (le64 f).toNat = fieldValue f := by
  rw [fieldValue_eq_leNat, toNat_le64 hf]

theorem toNat_ofNat32_eq_fieldValue {f : List Byte} (hf : f.length = 4) :
    (BitVec.ofNat 32 (leNat f)).toNat = fieldValue f := by
  rw [fieldValue_eq_leNat, toNat_ofNat32_leNat hf]

/-- R12: two's complement, read off the unsigned value. -/
theorem toInt_word32 (v : Word32) :
    v.toInt = if v.toNat < 2 ^ 31 then (v.toNat : Int) else (v.toNat : Int) - 2 ^ 32 := by
  rw [BitVec.toInt_eq_toNat_cond]
  split_ifs <;> omega

theorem toNat_zext64 (v : Word32) : (zext64 v).toNat = v.toNat :=
  BitVec.toNat_setWidth_of_le (by decide)

/-- Settles O4: each format's packet decodes field by field, and the fields' words have the values of R53. -/
theorem operandFieldsAreLittleEndian : Obligations.OperandFieldsAreLittleEndian := by
  refine ⟨fun f g hf hg => ?_, fun f g hf hg => ?_, fun f g key hf hg hkey => ?_, fun g key hg hkey => ?_⟩
  · refine ⟨_, _, decode_config_fields hf hg, toNat_le64_eq_fieldValue hf, ?_⟩
    rw [toInt_word32, toNat_ofNat32_eq_fieldValue hg]
  · exact ⟨_, _, decode_addh_fields hf hg, decode_existsh_fields hf hg, toNat_le64_eq_fieldValue hf,
      toNat_le64_eq_fieldValue hg⟩
  · rw [fieldValue_eq_leNat] at hkey
    have hseed := toNat_ofNat32_eq_fieldValue hf
    exact ⟨_, decode_hash_fields false hf hg hkey, decode_hash_fields true hf hg hkey, hseed,
      (toNat_zext64 _).trans hseed⟩
  · rw [fieldValue_eq_leNat] at hkey
    exact ⟨decode_add_fields hg hkey, decode_existsKey_fields hg hkey⟩

/-- Settles O5: one run of the decoder for each of the eight opcode bytes. -/
theorem samplePacketsDecode : Obligations.SamplePacketsDecode :=
  ⟨by decide, by decide, by decide, by decide, by decide, by decide, by decide, by decide⟩

/-! ### Response packets -/

theorem bytes64_bswap64 (a : Word) : bytes64 (bswap64 a) = (bytes64 a).reverse :=
  bytes64_le64 (by rw [List.length_reverse, length_bytes64])

/-- R59, from the host's side: the error that a code stands for. -/
def ErrorCode.ofNumber (b : Byte) : ErrorCode :=
  if b = 1 then .invalidConfiguration
  else if b = 2 then .illegalCommand
  else if b = 3 then .notConfigured
  else .capacityExceeded

@[simp] theorem ofNumber_number (c : ErrorCode) : ErrorCode.ofNumber c.number = c := by
  cases c <;> rfl

/-- R59, from the host's side: the response that a packet sent by the engine stands for; packets it never sends are
not told apart. -/
def Response.ofPacket : Packet → Option Response
  | [] => none
  | kind :: payload =>
    if kind = 0x00 then some .ok
    else if kind = 0x01 then some (.bool (payload == [0x01]))
    else if kind = 0x02 then some (.pair (le64 (payload.take 8)) (le64 (payload.drop 8)))
    else some (.err (ErrorCode.ofNumber (payload.headD 0)))

/-- The host reads back the response the engine has sent. -/
theorem ofPacket_encode (r : Response) : Response.ofPacket r.encode = some r := by
  cases r with
  | ok => rfl
  | bool b => cases b <;> rfl
  | pair h1 h2 =>
    have hfirst : (bytes64 h1 ++ bytes64 h2).take 8 = bytes64 h1 := List.take_left' (length_bytes64 h1)
    have hsecond : (bytes64 h1 ++ bytes64 h2).drop 8 = bytes64 h2 := List.drop_left' (length_bytes64 h1)
    simp [Response.encode, Response.ofPacket, hfirst, hsecond, le64_bytes64]
  | err c => simp [Response.encode, Response.ofPacket]

theorem encode_response_injective {r r' : Response} (h : r.encode = r'.encode) : r = r' := by
  rw [← Option.some_inj, ← ofPacket_encode r, ← ofPacket_encode r', h]

/-- Settles O6: the kinds and codes are the encoder's own; a word's field has the word's value, reversed with it; and
the host can read every packet back, so no two responses share one. -/
theorem responsePacketsCarryTheResponse : Obligations.ResponsePacketsCarryTheResponse := by
  refine ⟨rfl, fun _ => rfl, fun h1 h2 => ?_, fun h1 h2 => ?_, rfl, rfl, rfl, rfl, fun _ _ => encode_response_injective⟩
  · have hvalue (v : Word) : fieldValue (bytes64 v) = v.toNat := by
      rw [← toNat_le64_eq_fieldValue (length_bytes64 v), le64_bytes64]
    exact ⟨_, _, rfl, length_bytes64 h1, length_bytes64 h2, hvalue h1, hvalue h2⟩
  · rw [Response.encode, bytes64_bswap64, bytes64_bswap64]

end Sys2Proof.Machine
end

section
/-! PROOFS. One response to every packet (R51, R58), and the keyed commands through the hash pair (R57). -/

namespace Sys2Proof.Machine

theorem exec_answers_one_response {i : Instr} {s t : State} (h : exec i s = .next t) :
    ∃ r, t.responses = s.responses ++ [r] := by
  rcases exec_cases h with ⟨e, rfl⟩ | ⟨size, n, -, -, -, -, rfl⟩ | ⟨-, -, rfl⟩ | ⟨swap, seed, key, -, rfl⟩ |
    ⟨h1, h2, -, -, -, rfl⟩ | ⟨h1, h2, -, -, -, rfl⟩
  all_goals exact ⟨_, rfl⟩

theorem step_answers_one_response {s t : State} {p : Packet} (hf : s.fetch = some (.packet p))
    (h : step s = .next t) : ∃ r, t.responses = s.responses ++ [r] := by
  rcases step_cases h with ⟨hnone, -⟩ | ⟨hreset, -⟩ | ⟨p', e, -, -, rfl⟩ | ⟨p', i, u, -, -, hu, rfl⟩
  · simp [hf] at hnone
  · simp [hf] at hreset
  · exact ⟨_, rfl⟩
  · obtain ⟨r, hr⟩ := exec_answers_one_response hu
    exact ⟨r, hr⟩

/-- Settles O14: the invariant makes the step answer, and every answer to a packet is one response. -/
theorem everyPacketGetsOneResponse : Obligations.EveryPacketGetsOneResponse := by
  intro s p hs hf
  obtain ⟨t, ht⟩ := step_answers_of_inv hs
  obtain ⟨r, hr⟩ := step_answers_one_response hf ht
  exact ⟨t, r, ht, hr, by rw [State.sentPackets, hr, List.map_append]; rfl⟩

/-- R80: the pair in HASH's answer is `mh3` of the key. -/
theorem pair_of_exec_hash {swap : Bool} {seed : Word32} {key : Key} {s t : State} {h1 h2 : Word}
    (h : exec (.hash swap seed key) s = .next t) (hr : t.responses = s.responses ++ [.pair h1 h2]) :
    mh3 mixConst key seed swap = (h1, h2) := by
  have hexec : exec (.hash swap seed key) s = _ := execHash_eq swap seed key s
  rw [hexec] at h
  cases h
  simpa [Prod.ext_iff] using hr

/-- Settles O37: ADD and EXISTS probe with `mh3` of the key, which is the pair that HASH has answered. -/
theorem keyedCommandsAreHashThenPair : Obligations.KeyedCommandsAreHashThenPair := by
  intro key s t h1 h2 h hr
  have hpair : mh3 mixConst key mixConst.DEFAULT_SEED false = (h1, h2) := pair_of_exec_hash h hr
  constructor
  · simp only [exec, execAdd_eq, hpair]
  · simp only [exec, execExists_eq, hpair]

end Sys2Proof.Machine
end

section
/-! PROOFS. The command HASH (R80), its tail without guards (R75), SWAP byte by byte (R78, R6), and known answers. -/

namespace Sys2Proof.Machine

/-! ### The command -/

/-- R80: with no blocks and no tail only the finalisation is left. -/
theorem mh3_nil (c : MixConst) (seed : Word32) (swap : Bool) :
    mh3 c [] seed swap = swapOut swap (finalMix c (zext64 seed) (zext64 seed) 0) := rfl

/-- Settles O42: `execHash_eq` gives the answer, of which the filter is no part. -/
theorem hashAnswersMh3InEveryState : Obligations.HashAnswersMh3InEveryState := by
  intro swap seed key s
  exact ⟨⟨_, execHash_eq swap seed key s, ⟨rfl, rfl, rfl, rfl⟩, ⟨rfl, rfl, rfl⟩⟩, mh3_nil mixConst seed false⟩

/-! ### The tail without guards -/

@[simp] theorem rotl64_zero (n : Nat) : rotl64 0#64 n = 0#64 := by
  simp [rotl64]

@[simp] theorem mixk1_zero (c : MixConst) : mixk1 c 0#64 = 0#64 := by
  simp [mixk1]

@[simp] theorem mixk2_zero (c : MixConst) : mixk2 c 0#64 = 0#64 := by
  simp [mixk2]

/-- An empty tail leaves its first lane zero. -/
theorem tailLane1_of_length_lt {t : List Byte} (h : t.length < 1) : tailLane1 t = 0#64 := by
  rw [tailLane1, List.length_eq_zero_iff.mp (Nat.lt_one_iff.mp h)]
  rfl

/-- A tail that ends within the first lane leaves the second zero. -/
theorem tailLane2_of_length_lt {t : List Byte} (h : t.length < 9) : tailLane2 t = 0#64 := by
  rw [tailLane2, List.drop_eq_nil_of_le (Nat.le_of_lt_succ h)]
  rfl

/-- R75: where a guard stops a fold, the lane is zero and the fold would change nothing. -/
theorem tailFold_eq_unguarded (c : MixConst) (h1 h2 : Word) (t : List Byte) :
    tailFold c t.length h1 h2 (tailLane1 t) (tailLane2 t) =
      (h1 ^^^ mixk1 c (tailLane1 t), h2 ^^^ mixk2 c (tailLane2 t)) := by
  rw [tailFold, Prod.mk.injEq]
  constructor
  · split_ifs with h
    · rfl
    · simp [tailLane1_of_length_lt (Nat.lt_of_not_le h)]
  · split_ifs with h
    · rfl
    · simp [tailLane2_of_length_lt (Nat.lt_of_not_le h)]

/-- Settles O44: the loops assemble the lanes, and the guards only skip lanes that are zero. -/
theorem tailFollowsThePseudocode : Obligations.TailFollowsThePseudocode := by
  intro c h1 h2 t _
  exact ⟨tailFold_eq_tailBySpec c h1 h2 t, tailFold_eq_unguarded c h1 h2 t⟩

/-! ### The output byte reversal -/

/-- Byte `j` of a field is the value shifted down by `j` bytes. -/
theorem getElem_leBytes {n j : Nat} (v : Nat) (hj : j < (leBytes n v).length) :
    (leBytes n v)[j] = BitVec.ofNat 8 (v >>> (8 * j)) := by
  induction n generalizing v j with
  | zero => cases hj
  | succ n ih =>
    cases j with
    | zero => rfl
    | succ j =>
      have hshift : (v / 256) >>> (8 * j) = v >>> (8 * (j + 1)) := by
        rw [Nat.mul_succ, Nat.add_comm, Nat.shiftRight_add, Nat.shiftRight_eq_div_pow v 8]
      simp only [leBytes, List.getElem_cons_succ, ih, hshift]

/-- R53: the bytes of a word, as slices of its bits. -/
theorem getElem_bytes64 (a : Word) {j : Nat} (hj : j < (bytes64 a).length) :
    (bytes64 a)[j] = a.extractLsb' (8 * j) 8 :=
  getElem_leBytes a.toNat hj

/-- R6: `bswap64` reverses the order of the bytes. -/
theorem extractLsb'_bswap64 (a : Word) {j : Nat} (hj : j < 8) :
    (bswap64 a).extractLsb' (8 * j) 8 = a.extractLsb' (8 * (7 - j)) 8 := by
  have hlen (v : Word) : j < (bytes64 v).length := by rwa [length_bytes64]
  rw [← getElem_bytes64 (bswap64 a) (hlen _), ← getElem_bytes64 a (by rw [length_bytes64]; omega)]
  simp [bytes64_bswap64]

/-- Settles O47: SWAP acts after the hash, word by word, and `bytes64_bswap64` reverses each word's bytes. -/
theorem swapReversesEachWord : Obligations.SwapReversesEachWord :=
  ⟨fun _ _ _ => rfl, fun a _ hj => extractLsb'_bswap64 a hj⟩

/-! ### Known answers -/

/-- Settles O48: five runs of the hash. -/
theorem knownAnswersOfTheHash : Obligations.KnownAnswersOfTheHash :=
  ⟨by decide, by decide, by decide, by decide, by decide⟩

end Sys2Proof.Machine
end

section
/-! PROOFS. The lane mixes and the finisher (R72, R73, R76) are bijections: each is a chain of multiplications by odd
constants, rotates, and exclusive ors with a shifted copy. -/

namespace Sys2Proof.Machine

/-! ### The links of the chain -/

/-- An odd word has an inverse modulo `2^64`. -/
theorem isUnit_of_odd {c : Word} (hc : Odd c.toNat) : IsUnit c := by
  have hcoprime : Nat.Coprime c.toNat (2 ^ 64) := hc.coprime_two_right.pow_right 64
  obtain ⟨d, -, hd⟩ := Nat.exists_mul_mod_eq_one_of_coprime hcoprime (by decide)
  refine .of_mul_eq_one (BitVec.ofNat 64 d) (BitVec.eq_of_toNat_eq ?_)
  rw [BitVec.toNat_mul, BitVec.toNat_ofNat, Nat.mul_mod_mod, hd]
  rfl

theorem mul_bijective {c : Word} (hc : Odd c.toNat) : Function.Bijective (fun k : Word => k * c) :=
  IsUnit.isUnit_iff_mulRight_bijective.mp (isUnit_of_odd hc)

/-- A rotate loses nothing: every bit is found again, at its new position. -/
theorem rotl64_bijective {n : Nat} (hpos : 1 ≤ n) (hn : n ≤ 63) : Function.Bijective (fun k => rotl64 k n) := by
  refine Finite.injective_iff_bijective.mp fun a b hab => BitVec.eq_of_getLsbD_eq fun i hi => ?_
  rw [← rotateMovesEveryBit a n i hpos hn hi, ← rotateMovesEveryBit b n i hpos hn hi]
  exact congrArg (·.getLsbD ((i + n) % 64)) hab

/-- One exclusive or with a shifted copy, as in `fmix64` (R76). -/
def xorShift (n : Nat) (k : Word) : Word := k ^^^ (k >>> n)

/-- By at least half the word: the second pass takes out what the first put in. -/
theorem xorShift_involutive {n : Nat} (hn : 64 ≤ n + n) : Function.Involutive (xorShift n) := by
  intro k
  have htwice : k >>> n >>> n = 0#64 := by rw [← BitVec.shiftRight_add, BitVec.ushiftRight_eq_zero hn]
  simp only [xorShift, BitVec.ushiftRight_xor_distrib, htwice]
  rw [BitVec.xor_assoc, ← BitVec.xor_assoc (k >>> n), BitVec.xor_self, BitVec.zero_xor, BitVec.xor_zero]

/-! ### The chains -/

theorem mixk1_bijective {c : MixConst} (hC1 : Odd c.C1.toNat) (hC2 : Odd c.C2.toNat) (hpos : 1 ≤ c.R_K1)
    (hR : c.R_K1 ≤ 63) : Function.Bijective (mixk1 c) :=
  (mul_bijective hC2).comp ((rotl64_bijective hpos hR).comp (mul_bijective hC1))

theorem mixk2_bijective {c : MixConst} (hC1 : Odd c.C1.toNat) (hC2 : Odd c.C2.toNat) (hpos : 1 ≤ c.R_K2)
    (hR : c.R_K2 ≤ 63) : Function.Bijective (mixk2 c) :=
  (mul_bijective hC1).comp ((rotl64_bijective hpos hR).comp (mul_bijective hC2))

theorem fmix64_bijective {c : MixConst} (hM1 : Odd c.FMIX_M1.toNat) (hM2 : Odd c.FMIX_M2.toNat)
    (hshift : 64 ≤ c.FMIX_SHIFT + c.FMIX_SHIFT) : Function.Bijective (fmix64 c) := by
  have hxor : Function.Bijective (xorShift c.FMIX_SHIFT) := (xorShift_involutive hshift).bijective
  exact hxor.comp ((mul_bijective hM2).comp (hxor.comp ((mul_bijective hM1).comp hxor)))

@[simp] theorem fmix64_zero (c : MixConst) : fmix64 c 0#64 = 0#64 := by
  simp [fmix64]

/-- Settles O45: R70's multipliers are odd, its rotates proper, and its shift is more than half the word. -/
theorem laneMixesAndFinisherAreBijections : Obligations.LaneMixesAndFinisherAreBijections := by
  have hC1 : Odd mixConst.C1.toNat := by decide
  have hC2 : Odd mixConst.C2.toNat := by decide
  exact ⟨mixk1_bijective hC1 hC2 (by decide) (by decide), mixk2_bijective hC1 hC2 (by decide) (by decide),
    fmix64_bijective (by decide) (by decide) (by decide), mixk1_zero mixConst, mixk2_zero mixConst,
    fmix64_zero mixConst⟩

end Sys2Proof.Machine
end

section
/-! PROOFS. CONFIG and CLEAR (R111, R112): one equation per case, and R112's loop of bit writes. -/

namespace Sys2Proof.Machine

/-! ### CONFIG -/

theorem exec_config_invalid {size : Word} {n : Word32} (s : State) (h : size = 0 ∨ n.toInt ≤ 0) :
    exec (.config size n) s = .next (raise .invalidConfiguration s) :=
  if_pos h

theorem exec_config_overCapacity {size : Word} {n : Word32} {s : State} (hsize : size ≠ 0) (hn : 0 < n.toInt)
    (hcap : s.mMax < size) : exec (.config size n) s = .next (raise .capacityExceeded s) := by
  have hvalid : ¬ (size = 0 ∨ n.toInt ≤ 0) := not_or.mpr ⟨hsize, Int.not_le.mpr hn⟩
  exact (if_neg hvalid).trans (if_pos hcap)

theorem exec_config_ok {size : Word} {n : Word32} {s : State} (hsize : size ≠ 0) (hn : 0 < n.toInt)
    (hcap : size ≤ s.mMax) :
    exec (.config size n) s = .next (respond .ok { s with M := size, K := n, BITS := Memory.allFalse }) := by
  have hvalid : ¬ (size = 0 ∨ n.toInt ≤ 0) := not_or.mpr ⟨hsize, Int.not_le.mpr hn⟩
  exact (if_neg hvalid).trans (if_neg (BitVec.not_lt.mpr hcap))

/-- Settles O25: CONFIG's three equations; an error does not touch the filter, and a fresh array reads false. -/
theorem configInstallsAFreshFilter : Obligations.ConfigInstallsAFreshFilter := by
  intro size n s
  refine ⟨fun h => ?_, fun hsize hn hcap => ?_, fun hsize hn hcap => ?_⟩
  · exact ⟨_, exec_config_invalid s h, ⟨rfl, rfl, rfl, rfl⟩, ⟨rfl, rfl, rfl⟩⟩
  · exact ⟨_, exec_config_overCapacity hsize hn hcap, ⟨rfl, rfl, rfl, rfl⟩, ⟨rfl, rfl, rfl⟩⟩
  · exact ⟨_, exec_config_ok hsize hn hcap, ⟨rfl, rfl, rfl, rfl⟩, rfl, rfl, read_allFalse⟩

/-! ### CLEAR -/

/-- R142: on an unconfigured engine the five filter commands end at their first check. -/
theorem exec_notConfigured {i : Instr} {s : State} (hi : needsConfig i = true) (hK : s.K = 0) :
    exec i s = .next (raise .notConfigured s) := by
  cases i with
  | config | hash => cases hi
  | clear | add | existsKey | addh | existsh => exact if_pos hK

theorem exec_notConfigured_answers {i : Instr} (s : State) (hi : needsConfig i = true) (hK : s.K = 0) :
    ∃ t, exec i s = .next t ∧ Answered s t (.err .notConfigured) ∧ SameFilter s t :=
  ⟨_, exec_notConfigured hi hK, ⟨rfl, rfl, rfl, rfl⟩, ⟨rfl, rfl, rfl⟩⟩

theorem exec_clear_ok {s : State} (hK : s.K ≠ 0) :
    exec .clear s = .next (respond .ok { s with BITS := Memory.allFalse }) :=
  if_neg hK

theorem K_ne_zero_of_pos {s : State} (hK : 0 < s.K.toInt) : s.K ≠ 0 := by
  intro hzero
  simp [hzero] at hK

/-- Settles O29: CLEAR and the CONFIG of the `M` and `K` that stand in the state install the same filter. -/
theorem clearMakesEveryBitFalse : Obligations.ClearMakesEveryBitFalse := by
  intro s
  refine ⟨exec_notConfigured_answers s rfl, fun hK => ?_, fun hM hK hcap => ?_⟩
  · exact ⟨_, exec_clear_ok hK, ⟨rfl, rfl, rfl, rfl⟩, rfl, rfl, read_allFalse⟩
  · rw [exec_clear_ok (K_ne_zero_of_pos hK), exec_config_ok hM hK hcap]

/-! ### The loop of CLEAR -/

theorem eq_allFalse_of_read {b : Memory} (h : ∀ j, b.read j = false) : b = Memory.allFalse := by
  obtain ⟨ones⟩ := b
  have hnil : ones = [] := List.eq_nil_iff_forall_not_mem.mpr fun j => of_decide_eq_false (h j)
  rw [hnil, Memory.allFalse]

/-- Clearing the indices of a list one by one clears these bits and no others. -/
theorem read_foldl_write_false (l : List Nat) (b : Memory) (j : Nat) :
    (l.foldl (fun b idx => b.write idx false) b).read j = if j ∈ l then false else b.read j := by
  induction l generalizing b with
  | nil => rfl
  | cons i l ih =>
    rw [List.foldl_cons, ih, read_write]
    by_cases hj : j = i <;> simp [hj]

theorem read_of_wf_of_le {len j : Nat} {b : Memory} (hb : Memory.wf len b) (hj : len ≤ j) : b.read j = false := by
  obtain ⟨-, hbound⟩ := hb
  exact decide_eq_false fun hmem => absurd (hbound j hmem) (Nat.not_lt.mpr hj)

/-- Settles O30: the loop clears every index below `M`, and above it a canonical array has no true bit. -/
theorem clearLoopEmptiesTheArray : Obligations.ClearLoopEmptiesTheArray := by
  intro M b hb
  refine eq_allFalse_of_read fun j => ?_
  rw [read_foldl_write_false]
  split_ifs with hj
  · rfl
  · exact read_of_wf_of_le hb (Nat.not_lt.mp (mt List.mem_range.mpr hj))

end Sys2Proof.Machine
end

section
/-! PROOFS. Where the probe walk stands (R110): one probe moves it on by one, in ADD and in EXISTS alike. -/

namespace Sys2Proof.Machine

@[simp] theorem walk_H1 (w : Work) : (walk w).H1 = w.H1 + w.H2 := rfl
@[simp] theorem walk_H2 (w : Work) : (walk w).H2 = w.H2 := rfl
@[simp] theorem walk_I (w : Work) : (walk w).I = w.I + 1 := rfl

/-- The working registers stand `n` probes into the walk of the pair `h1`, `h2`. -/
structure WalkedTo (h1 h2 : Word) (n : Nat) (w : Work) : Prop where
  H1 : w.H1.toNat = (h1.toNat + n * h2.toNat) % 2 ^ 64
  H2 : w.H2 = h2
  I : w.I.toNat = n % 2 ^ 32

section
variable {h1 h2 : Word} {n : Nat}

theorem walkedTo_zero {w : Work} (hH1 : w.H1 = h1) (hH2 : w.H2 = h2) (hI : w.I = 0) : WalkedTo h1 h2 0 w where
  H1 := by rw [hH1, Nat.zero_mul, Nat.add_zero, Nat.mod_eq_of_lt h1.isLt]
  H2 := hH2
  I := by rw [hI]; rfl

theorem WalkedTo.walk {w : Work} (hw : WalkedTo h1 h2 n w) : WalkedTo h1 h2 (n + 1) (walk w) where
  H1 := by rw [walk_H1, BitVec.toNat_add, hw.H1, hw.H2, Nat.mod_add_mod, Nat.succ_mul, Nat.add_assoc]
  H2 := by rw [walk_H2, hw.H2]
  I := by
    rw [walk_I, BitVec.toNat_add, hw.I]
    exact Nat.mod_add_mod n (2 ^ 32) 1

/-- `IDX` and `ACC` are no part of the walk. -/
theorem WalkedTo.withIdxAcc {w : Work} (hw : WalkedTo h1 h2 n w) (idx : Word) (acc : Bool) :
    WalkedTo h1 h2 n { w with IDX := idx, ACC := acc } :=
  ⟨hw.H1, hw.H2, hw.I⟩

theorem WalkedTo.addProbe {x : Work × Memory} (M : Word) (hx : WalkedTo h1 h2 n x.1) :
    WalkedTo h1 h2 (n + 1) (addProbe M x).1 :=
  (hx.withIdxAcc _ _).walk

theorem WalkedTo.testProbe {w : Work} (M : Word) (b : Memory) (hw : WalkedTo h1 h2 n w) :
    WalkedTo h1 h2 (n + 1) (testProbe M b w) :=
  (hw.withIdxAcc _ _).walk

theorem WalkedTo.addLoop {x : Work × Memory} (M : Word) (k : Nat) (hx : WalkedTo h1 h2 n x.1) :
    WalkedTo h1 h2 (n + k) (addLoop M k x).1 := by
  induction k generalizing n x with
  | zero => exact hx
  | succ k ih =>
    rw [← Nat.add_assoc, Nat.add_right_comm]
    exact ih (hx.addProbe M)

theorem WalkedTo.testLoop {w : Work} (M : Word) (b : Memory) (k : Nat) (hw : WalkedTo h1 h2 n w) :
    WalkedTo h1 h2 (n + k) (testLoop M b k w) := by
  induction k generalizing n w with
  | zero => exact hw
  | succ k ih =>
    rw [← Nat.add_assoc, Nat.add_right_comm]
    exact ih (hw.testProbe M b)

/-- The index of the next probe, from where the walk stands. -/
theorem WalkedTo.umod_eq_probeIndex {w : Work} (M : Word) (hw : WalkedTo h1 h2 n w) :
    (umod w.H1 M).toNat = probeIndex h1 h2 M n := by
  rw [umod_toNat, hw.H1, probeIndex]

end

/-- Settles O32: both loops walk on from the start, and the next index follows from where the walk stands. -/
theorem probesWalkTheClosedForm : Obligations.ProbesWalkTheClosedForm := by
  intro M h1 h2 w b n hM hH1 hH2 hI
  have hstart : WalkedTo h1 h2 0 w := walkedTo_zero hH1 hH2 hI
  have hadd : WalkedTo h1 h2 (0 + n) (addLoop M n (w, b)).1 := hstart.addLoop M n
  have htest : WalkedTo h1 h2 (0 + n) (testLoop M b n w) := hstart.testLoop M b n
  rw [Nat.zero_add] at hadd htest
  exact ⟨⟨hadd.H1, hadd.H2, hadd.I, hadd.umod_eq_probeIndex M⟩,
    ⟨htest.H1, htest.H2, htest.I, htest.umod_eq_probeIndex M⟩, probeIndex_lt h1 h2 M n hM⟩

end Sys2Proof.Machine
end

section
/-! PROOFS. The probing commands (R113 to R116): what a command does that adds, or tests, the bits of a pair. ADDH and
EXISTSH are given the pair, ADD and EXISTS take it from the key's hash. -/

namespace Sys2Proof.Machine

theorem whenChecked_of_configured {s : State} (hK : 1 ≤ s.K.toInt) (hM : s.M ≠ 0)
    (body : Host.Outcome State Fault Refusal) : whenConfigured s (whenDivisible s body) = body := by
  rw [whenConfigured, if_neg (K_ne_zero_of_pos hK), whenDivisible, if_neg fun h => hM h.2]

/-- R113, R115: a command that adds a pair, on a configured engine. -/
theorem exec_adds {i : Instr} {h1 h2 : Word} {s : State} (hi : pairOf i = some (true, h1, h2))
    (hK : 1 ≤ s.K.toInt) (hM : s.M ≠ 0) :
    exec i s = .next (respond (.bool (decide (∃ j ∈ probeIndices h1 h2 s.M s.K, s.BITS.read j = false)))
      { s with BITS := addedBits s h1 h2 }) := by
  cases i with
  | config | clear | hash | existsKey | existsh => cases hi
  | add key =>
    cases hi
    exact (execAdd_eq key s).trans ((execAddh_eq _ _ s).trans (whenChecked_of_configured hK hM _))
  | addh =>
    cases hi
    exact (execAddh_eq h1 h2 s).trans (whenChecked_of_configured hK hM _)

/-- R114, R116: a command that tests a pair, on a configured engine. -/
theorem exec_tests {i : Instr} {h1 h2 : Word} {s : State} (hi : pairOf i = some (false, h1, h2))
    (hK : 1 ≤ s.K.toInt) (hM : s.M ≠ 0) :
    exec i s = .next (respond (.bool (decide (∀ j ∈ probeIndices h1 h2 s.M s.K, s.BITS.read j = true))) s) := by
  cases i with
  | config | clear | hash | add | addh => cases hi
  | existsKey key =>
    cases hi
    exact (execExists_eq key s).trans ((execExistsh_eq _ _ s).trans (whenChecked_of_configured hK hM _))
  | existsh =>
    cases hi
    exact (execExistsh_eq h1 h2 s).trans (whenChecked_of_configured hK hM _)

/-! ### Adding -/

/-- Some bit goes from false to true exactly when some probe index read false before. -/
theorem exists_read_rises_iff (s : State) (h1 h2 : Word) :
    (∃ j ∈ probeIndices h1 h2 s.M s.K, s.BITS.read j = false) ↔
      ∃ idx, s.BITS.read idx = false ∧ (addedBits s h1 h2).read idx = true := by
  refine exists_congr fun j => ?_
  rw [read_addedBits, and_comm]
  refine and_congr_right fun hclear => ?_
  rw [hclear, Bool.false_or, decide_eq_true_iff]

theorem exec_adds_answers {i : Instr} {h1 h2 : Word} {s : State} (hi : pairOf i = some (true, h1, h2))
    (hK : 1 ≤ s.K.toInt) (hM : s.M ≠ 0) :
    ∃ t b, exec i s = .next t ∧ Answered s t (.bool b) ∧ t.M = s.M ∧ t.K = s.K ∧
      (∀ idx, t.BITS.read idx = (s.BITS.read idx || decide (idx ∈ probeIndices h1 h2 s.M s.K))) ∧
      (b = true ↔ ∃ idx, s.BITS.read idx = false ∧ t.BITS.read idx = true) :=
  ⟨_, _, exec_adds hi hK hM, ⟨rfl, rfl, rfl, rfl⟩, rfl, rfl, read_addedBits s h1 h2,
    decide_eq_true_iff.trans (exists_read_rises_iff s h1 h2)⟩

/-- Settles O33: ADDH adds the pair it is given. -/
theorem addhSetsTheDerivedBits : Obligations.AddhSetsTheDerivedBits :=
  fun h1 h2 s => ⟨exec_notConfigured_answers s rfl, exec_adds_answers (i := .addh h1 h2) rfl⟩

/-- Settles O35: ADD adds the pair of its key's hash. -/
theorem addSetsTheBitsOfTheKey : Obligations.AddSetsTheBitsOfTheKey :=
  fun key s => ⟨exec_notConfigured_answers s rfl, exec_adds_answers (i := .add key) rfl⟩

/-! ### Testing -/

theorem exec_tests_answers {i : Instr} {h1 h2 : Word} {s : State} (hi : pairOf i = some (false, h1, h2))
    (hK : 1 ≤ s.K.toInt) (hM : s.M ≠ 0) :
    ∃ t b, exec i s = .next t ∧ Answered s t (.bool b) ∧ SameFilter s t ∧
      (b = true ↔ ∀ idx ∈ probeIndices h1 h2 s.M s.K, s.BITS.read idx = true) :=
  ⟨_, _, exec_tests hi hK hM, ⟨rfl, rfl, rfl, rfl⟩, ⟨rfl, rfl, rfl⟩, decide_eq_true_iff⟩

/-- Settles O34: EXISTSH tests the pair it is given. -/
theorem existshTestsTheDerivedBits : Obligations.ExistshTestsTheDerivedBits :=
  fun h1 h2 s => ⟨exec_notConfigured_answers s rfl, exec_tests_answers (i := .existsh h1 h2) rfl⟩

/-- Settles O36: EXISTS tests the pair of its key's hash. -/
theorem existsTestsTheBitsOfTheKey : Obligations.ExistsTestsTheBitsOfTheKey :=
  fun key s => ⟨exec_notConfigured_answers s rfl, exec_tests_answers (i := .existsKey key) rfl⟩

/-- A configured engine probes at least once. -/
theorem probeIndex_zero_mem {K : Word32} (h1 h2 M : Word) (hK : 1 ≤ K.toInt) :
    probeIndex h1 h2 M 0 ∈ probeIndices h1 h2 M K :=
  (mem_probeIndices h1 h2 M K _).mpr ⟨0, (probeCount_pos_iff K).mpr hK, rfl⟩

theorem exec_tests_empty {i : Instr} {h1 h2 : Word} {s : State} (hi : pairOf i = some (false, h1, h2))
    (hK : 1 ≤ s.K.toInt) (hM : s.M ≠ 0) (hempty : ∀ idx, s.BITS.read idx = false) :
    ∃ t, exec i s = .next t ∧ Answered s t (.bool false) := by
  obtain ⟨t, b, ht, hanswer, -, hb⟩ := exec_tests_answers hi hK hM
  have hfalse : b = false := by
    refine Bool.eq_false_iff.mpr fun htrue => ?_
    have hread := hb.mp htrue _ (probeIndex_zero_mem h1 h2 s.M hK)
    rw [hempty] at hread
    cases hread
  exact ⟨t, ht, hfalse ▸ hanswer⟩

/-- Settles O38: the first probe already finds a false bit. -/
theorem emptyFilterHasNothing : Obligations.EmptyFilterHasNothing :=
  fun _ hK hM hempty =>
    ⟨fun key => exec_tests_empty (i := .existsKey key) rfl hK hM hempty,
      fun h1 h2 => exec_tests_empty (i := .existsh h1 h2) rfl hK hM hempty⟩

end Sys2Proof.Machine
end

section
/-! PROOFS. No false negatives (R117), and the second ADD (R119). That all bits of a pair are true holds after the ADD
and is kept by every event that does not clear or replace the filter; by it a later command with the same pair has its
answer. -/

namespace Sys2Proof.Machine

section
variable {h1 h2 mMax : Word} {s t : State} {i : Instr}

/-! ### The inductive invariant -/

/-- On a configured engine with capacity `mMax` every bit of the pair is true. -/
structure HoldsPair (h1 h2 mMax : Word) (s : State) : Prop where
  inv : s.Inv
  configured : 1 ≤ s.K.toInt
  capacity : s.mMax = mMax
  present : ∀ j ∈ probeIndices h1 h2 s.M s.K, s.BITS.read j = true

theorem HoldsPair.M_ne_zero (h : HoldsPair h1 h2 mMax s) : s.M ≠ 0 :=
  M_ne_zero_of_inv h.inv (K_ne_zero_of_pos h.configured)

/-- R113, R115: after the ADD the bits of its pair are true. -/
theorem holdsPair_of_exec_adds (hs : s.Inv) (hK : 1 ≤ s.K.toInt) (hi : pairOf i = some (true, h1, h2))
    (ht : exec i s = .next t) : HoldsPair h1 h2 s.mMax t := by
  have hM : s.M ≠ 0 := M_ne_zero_of_inv hs (K_ne_zero_of_pos hK)
  have hinv : t.Inv := exec_keeps_inv hs ht
  rw [exec_adds hi hK hM] at ht
  cases ht
  refine ⟨hinv, hK, rfl, fun j hj => ?_⟩
  rw [respond_M, respond_K] at hj
  rw [respond_BITS, read_addedBits, decide_eq_true hj, Bool.or_true]

/-- R11, R12: a command that keeps the filter writes neither `M` nor `K`. -/
theorem exec_keeps_M_K (hkeep : keepsFilter s.mMax i = true) (ht : exec i s = .next t) : t.M = s.M ∧ t.K = s.K := by
  rcases exec_config_or_keeps ht with hsame | ⟨size, n, rfl, hsize, hn, hcap, -⟩
  · exact hsame
  · rw [keepsFilter_config_eq_false hsize hn (BitVec.not_lt.mpr hcap)] at hkeep
    cases hkeep

theorem HoldsPair.exec (h : HoldsPair h1 h2 mMax s) (hkeep : keepsFilter mMax i = true) (ht : exec i s = .next t) :
    HoldsPair h1 h2 mMax t := by
  obtain ⟨hs, hK, rfl, hpresent⟩ := h
  obtain ⟨hMt, hKt⟩ := exec_keeps_M_K hkeep ht
  obtain ⟨hmax, -, -⟩ := exec_frame ht
  refine ⟨exec_keeps_inv hs ht, hKt ▸ hK, hmax, fun j hj => ?_⟩
  rw [hMt, hKt] at hj
  exact onlyClearAndConfigClearBits i s t ht hkeep j (hpresent j hj)

theorem HoldsPair.raise (h : HoldsPair h1 h2 mMax s) (e : ErrorCode) : HoldsPair h1 h2 mMax (raise e s) :=
  ⟨inv_raise e h.inv, h.configured, h.capacity, h.present⟩

theorem HoldsPair.advance (h : HoldsPair h1 h2 mMax s) (hinv : s.advance.Inv) : HoldsPair h1 h2 mMax s.advance :=
  ⟨hinv, h.configured, h.capacity, h.present⟩

/-- R117: every event that does not clear or replace the filter keeps the invariant. -/
theorem HoldsPair.step {e : HostEvent} (h : HoldsPair h1 h2 mMax s) (hf : s.fetch = some e)
    (hkeep : eventKeepsFilter mMax e = true) (ht : step s = .next t) : HoldsPair h1 h2 mMax t := by
  have hinv : t.Inv := stepKeepsTheInvariant s t h.inv ht
  rcases step_cases ht with ⟨hf', -⟩ | ⟨hf', -⟩ | ⟨p, err, hf', hd, rfl⟩ | ⟨p, i, u, hf', hd, hu, rfl⟩ <;>
    cases hf.symm.trans hf'
  · cases hkeep
  · exact (h.raise _).advance hinv
  · have hcmd : keepsFilter mMax i = true := by simpa only [eventKeepsFilter, hd] using hkeep
    exact (h.exec hcmd hu).advance hinv

/-! ### Runs -/

theorem fetch_of_drop {e : HostEvent} {rest : List HostEvent} (h : s.program.drop s.index = e :: rest) :
    s.fetch = some e := by
  rw [State.fetch, ← List.head?_drop, h, List.head?_cons]

/-- R20: after a step the rest of the program is what follows the event. -/
theorem drop_of_step {e : HostEvent} {rest : List HostEvent} (h : s.program.drop s.index = e :: rest)
    (ht : step s = .next t) : t.program.drop t.index = rest := by
  obtain ⟨hindex, hprogram⟩ := step_advances (fetch_of_drop h) ht
  rw [hindex, hprogram, ← List.tail_drop, h, List.tail_cons]

theorem runSteps_one (ht : step s = .next t) : runSteps 1 s = .next t :=
  runSteps_succ 0 ht

theorem runSteps_add {n : Nat} (k : Nat) (h : runSteps n s = .next t) : runSteps (n + k) s = runSteps k t := by
  induction n generalizing s with
  | zero =>
    cases h
    rw [Nat.zero_add]
  | succ n ih =>
    rcases hstep : step s with u | r | r
    · rw [runSteps_succ n hstep] at h
      rw [Nat.succ_add, runSteps_succ _ hstep, ih h]
    all_goals simp [runSteps, hstep] at h

/-- The run over a list of events that each keep the invariant. -/
theorem HoldsPair.run {between rest : List HostEvent} (h : HoldsPair h1 h2 mMax s)
    (hkeep : between.all (eventKeepsFilter mMax) = true) (hprogram : s.program.drop s.index = between ++ rest) :
    ∃ u, runSteps between.length s = .next u ∧ HoldsPair h1 h2 mMax u ∧ u.program.drop u.index = rest := by
  induction between generalizing s with
  | nil => exact ⟨s, rfl, h, hprogram⟩
  | cons e between ih =>
    rw [List.all_cons, Bool.and_eq_true] at hkeep
    obtain ⟨he, hkeep⟩ := hkeep
    obtain ⟨t, ht⟩ := step_answers_of_inv h.inv
    obtain ⟨u, hu, hholds, hrest⟩ := ih (h.step (fetch_of_drop hprogram) he ht) hkeep (drop_of_step hprogram ht)
    exact ⟨u, (runSteps_succ _ ht).trans hu, hholds, hrest⟩

/-! ### The answers -/

/-- R117, R119: with all bits of its pair true, a command that tests answers true and one that adds answers false. -/
theorem HoldsPair.answer {adds : Bool} (h : HoldsPair h1 h2 mMax s) (hi : pairOf i = some (adds, h1, h2)) :
    ∃ t, Machine.exec i s = .next t ∧ t.responses = s.responses ++ [.bool !adds] := by
  cases adds with
  | false =>
    refine ⟨_, exec_tests hi h.configured h.M_ne_zero, ?_⟩
    rw [respond_responses, decide_eq_true h.present]
    rfl
  | true =>
    have hnone : ¬ ∃ j ∈ probeIndices h1 h2 s.M s.K, s.BITS.read j = false := by
      rintro ⟨j, hj, hclear⟩
      rw [h.present j hj] at hclear
      cases hclear
    refine ⟨_, exec_adds hi h.configured h.M_ne_zero, ?_⟩
    rw [respond_responses, decide_eq_false hnone]
    rfl

theorem step_encode (hi : i.wellFormed = true) (hf : s.fetch = some (.packet (encode i)))
    (ht : exec i s = .next t) : step s = .next t.advance := by
  rw [step_command hf (decodeOfEncodeIsTheCommand i hi), ht]
  rfl

/-- An ADD, events that keep the filter, and a command with the same pair: the last answer is whether it only tests. -/
theorem run_from_add {a : Instr} {adds : Bool} {between rest : List HostEvent} (hs : s.Inv) (hK : 1 ≤ s.K.toInt)
    (ha : a.wellFormed = true) (hpa : pairOf a = some (true, h1, h2))
    (hi : i.wellFormed = true) (hpi : pairOf i = some (adds, h1, h2))
    (hkeep : between.all (eventKeepsFilter s.mMax) = true)
    (hprogram : s.program.drop s.index = .packet (encode a) :: (between ++ .packet (encode i) :: rest)) :
    ∃ u, runSteps (between.length + 2) s = .next u ∧ u.responses.getLast? = some (.bool !adds) := by
  obtain ⟨t, ht⟩ := exec_answers_of_inv hs a
  have hfirst : step s = .next t.advance := step_encode ha (fetch_of_drop hprogram) ht
  have hadded : HoldsPair h1 h2 s.mMax t.advance :=
    (holdsPair_of_exec_adds hs hK hpa ht).advance (stepKeepsTheInvariant s _ hs hfirst)
  obtain ⟨u, hu, hholds, hrest⟩ := hadded.run hkeep (drop_of_step hprogram hfirst)
  obtain ⟨v, hv, hresponse⟩ := hholds.answer hpi
  have hlast : step u = .next v.advance := step_encode hi (fetch_of_drop hrest) hv
  refine ⟨v.advance, ?_, by rw [advance_responses, hresponse, List.getLast?_concat]⟩
  calc runSteps (between.length + 2) s
      = runSteps (between.length + 1) t.advance := runSteps_succ _ hfirst
    _ = runSteps 1 u := runSteps_add 1 hu
    _ = .next v.advance := runSteps_one hlast

/-- An ADD and the EXISTS of the same key, or pair, walk with one pair. -/
theorem pairOf_of_addsWhatExists {a e : Instr} (h : AddsWhatExists a e) :
    a.wellFormed = true ∧ e.wellFormed = true ∧
      ∃ h1 h2, pairOf a = some (true, h1, h2) ∧ pairOf e = some (false, h1, h2) := by
  rcases h with ⟨key, hkey, rfl, rfl⟩ | ⟨h1, h2, rfl, rfl⟩
  · exact ⟨decide_eq_true hkey, decide_eq_true hkey, _, _, rfl, rfl⟩
  · exact ⟨rfl, rfl, h1, h2, rfl, rfl⟩

end

/-- Settles O39: `run_from_add` with the EXISTS of the same pair as its last command. -/
theorem noFalseNegatives : Obligations.NoFalseNegatives := by
  intro s a e between rest hs hK hae hkeep hprogram
  obtain ⟨ha, he, h1, h2, hpa, hpe⟩ := pairOf_of_addsWhatExists hae
  exact run_from_add hs hK ha hpa he hpe hkeep hprogram

/-- Settles O40: `run_from_add` with the same ADD again as its last command. -/
theorem secondAddAnswersFalse : Obligations.SecondAddAnswersFalse := by
  rintro s a between rest hs hK ⟨e, hae⟩ hkeep hprogram
  obtain ⟨ha, -, h1, h2, hpa, -⟩ := pairOf_of_addsWhatExists hae
  exact run_from_add hs hK ha hpa ha hpa hkeep hprogram

end Sys2Proof.Machine
end

section
/-! PROOFS. The errors of the commands (R140 to R145, R150): which check fails on which command, that the error it raises
is then the whole answer, and that a command whose checks all pass answers no error. -/

namespace Sys2Proof.Machine

/-- The check of R145 that `i` fails in `s`, by the error it raises. No command fails two. -/
inductive Raises (s : State) : Instr → ErrorCode → Prop where
  /-- Check (2): the operands of CONFIG (R141). -/
  | invalidConfiguration {size : Word} {n : Word32} (hbad : size = 0 ∨ n.toInt ≤ 0) :
      Raises s (.config size n) .invalidConfiguration
  /-- Check (3): the capacity, behind check (2) (R144). -/
  | capacityExceeded {size : Word} {n : Word32} (hsize : size ≠ 0) (hn : 0 < n.toInt) (hcap : s.mMax < size) :
      Raises s (.config size n) .capacityExceeded
  /-- Check (2'): the filter commands on an unconfigured engine (R142). -/
  | notConfigured {i : Instr} (hi : needsConfig i = true) (hK : s.K = 0) : Raises s i .notConfigured

section
variable {s t : State} {i : Instr} {e : ErrorCode}

/-! ### A check that fails ends the command -/

theorem exec_of_raises (h : Raises s i e) : exec i s = .next (raise e s) := by
  cases h with
  | invalidConfiguration hbad => exact exec_config_invalid s hbad
  | capacityExceeded hsize hn hcap => exact exec_config_overCapacity hsize hn hcap
  | notConfigured hi hK => exact exec_notConfigured hi hK

/-- R142: a filter command fails no check but the one for an unconfigured engine. -/
theorem Raises.K_eq_zero (h : Raises s i e) (hi : needsConfig i = true) : s.K = 0 := by
  cases h with
  | invalidConfiguration | capacityExceeded => cases hi
  | notConfigured _ hK => exact hK

/-- R144: no `size` exceeds the largest capacity. -/
theorem Raises.mMax_lt_max (h : Raises s i .capacityExceeded) : s.mMax.toNat < 2 ^ 64 - 1 := by
  cases h with
  | @capacityExceeded size n _ _ hcap =>
    have hlt : s.mMax.toNat < size.toNat := hcap
    have hsize : size.toNat < 2 ^ 64 := size.isLt
    omega

/-- R150: the error has a place in the command's row of the table. -/
theorem Raises.tableAllows (h : Raises s i e) : tableAllows s.mMax i (.err e) = true := by
  cases h with
  | invalidConfiguration => rfl
  | capacityExceeded hsize hn hcap =>
    have hmax : s.mMax ≠ Config.mMaxDefault := by
      intro hdefault
      have hlt := (Raises.capacityExceeded hsize hn hcap).mMax_lt_max
      rw [hdefault] at hlt
      exact Nat.lt_irrefl _ hlt
    exact bne_iff_ne.mpr hmax
  | notConfigured hi =>
    cases i with
    | config | hash => cases hi
    | clear | add | existsKey | addh | existsh => rfl

/-! ### A command whose checks pass answers no error -/

/-- `s` and `t` differ by one more response, no error, of `i`'s row of R150's table. -/
def CompletesWithin (i : Instr) (s t : State) : Prop :=
  ∃ r, t.responses = s.responses ++ [r] ∧ tableAllows s.mMax i r = true ∧ r.isError = false

/-- Behind the check of R142 only the one for a modulus is left (R38), and it raises no error. -/
theorem eq_of_whenChecked_eq_next {u : State} (hK : s.K ≠ 0)
    (h : whenConfigured s (whenDivisible s (.next u)) = .next t) : u = t := by
  rw [whenConfigured, if_neg hK, whenDivisible] at h
  split_ifs at h
  cases h
  rfl

/-- R150, for the five filter commands on an engine that is not unconfigured. -/
theorem exec_filter_completes (hi : needsConfig i = true) (hK : s.K ≠ 0) (h : exec i s = .next t) :
    CompletesWithin i s t := by
  cases i with
  | config | hash => cases hi
  | clear =>
    rw [exec_clear_ok hK] at h
    cases h
    exact ⟨.ok, rfl, rfl, rfl⟩
  | add key =>
    simp only [exec, execAdd_eq, execAddh_eq] at h
    cases eq_of_whenChecked_eq_next hK h
    exact ⟨.bool _, rfl, rfl, rfl⟩
  | existsKey key =>
    simp only [exec, execExists_eq, execExistsh_eq] at h
    cases eq_of_whenChecked_eq_next hK h
    exact ⟨.bool _, rfl, rfl, rfl⟩
  | addh h1 h2 =>
    simp only [exec, execAddh_eq] at h
    cases eq_of_whenChecked_eq_next hK h
    exact ⟨.bool _, rfl, rfl, rfl⟩
  | existsh h1 h2 =>
    simp only [exec, execExistsh_eq] at h
    cases eq_of_whenChecked_eq_next hK h
    exact ⟨.bool _, rfl, rfl, rfl⟩

theorem exec_config_raises_or_completes {size : Word} {n : Word32} (h : exec (.config size n) s = .next t) :
    (∃ e, Raises s (.config size n) e) ∨ CompletesWithin (.config size n) s t := by
  by_cases hbad : size = 0 ∨ n.toInt ≤ 0
  · exact .inl ⟨_, .invalidConfiguration hbad⟩
  · obtain ⟨hsize, hn⟩ := not_or.mp hbad
    have hn : 0 < n.toInt := Int.not_le.mp hn
    by_cases hcap : s.mMax < size
    · exact .inl ⟨_, .capacityExceeded hsize hn hcap⟩
    · rw [exec_config_ok hsize hn (BitVec.not_lt.mp hcap)] at h
      cases h
      exact .inr ⟨.ok, rfl, rfl, rfl⟩

theorem exec_filter_raises_or_completes (hi : needsConfig i = true) (h : exec i s = .next t) :
    (∃ e, Raises s i e) ∨ CompletesWithin i s t := by
  by_cases hK : s.K = 0
  · exact .inl ⟨_, .notConfigured hi hK⟩
  · exact .inr (exec_filter_completes hi hK h)

/-- Every answer of a command: it fails a check, or it completes with a response that is no error. -/
theorem exec_raises_or_completes (h : exec i s = .next t) : (∃ e, Raises s i e) ∨ CompletesWithin i s t := by
  cases i with
  | config => exact exec_config_raises_or_completes h
  | hash =>
    cases h
    exact .inr ⟨.pair _ _, rfl, rfl, rfl⟩
  | clear | add | existsKey | addh | existsh => exact exec_filter_raises_or_completes rfl h

/-! ### Which error is answered when -/

theorem CompletesWithin.not_error (h : CompletesWithin i s t) : t.responses ≠ s.responses ++ [.err e] := by
  obtain ⟨r, hr, -, hnoerror⟩ := h
  intro herror
  obtain rfl : r = .err e := by simpa [hr] using herror
  cases hnoerror

theorem eq_raise_of_raises (h : exec i s = .next t) (he : Raises s i e) : t = raise e s := by
  rw [exec_of_raises he] at h
  cases h
  rfl

/-- A command answers an error exactly when it fails the check that raises it. -/
theorem exec_answers_error_iff (h : exec i s = .next t) :
    t.responses = s.responses ++ [.err e] ↔ Raises s i e := by
  constructor
  · intro herror
    rcases exec_raises_or_completes h with ⟨e', he'⟩ | hcompletes
    · obtain rfl : e' = e := by simpa [eq_raise_of_raises h he'] using herror
      exact he'
    · exact absurd herror hcompletes.not_error
  · intro he
    rw [eq_raise_of_raises h he, raise_responses]

end

/-- Settles O26: `Raises` has this error for CONFIG alone. -/
theorem invalidConfigurationExactlyOnBadOperands : Obligations.InvalidConfigurationExactlyOnBadOperands := by
  intro i s t h
  rw [exec_answers_error_iff h]
  constructor
  · intro he
    cases he with
    | invalidConfiguration hbad => exact ⟨_, _, rfl, hbad⟩
  · rintro ⟨size, n, rfl, hbad⟩
    exact .invalidConfiguration hbad

/-- Settles O27: `Raises` has this error for CONFIG alone, and only below the largest capacity. -/
theorem capacityExceededExactlyAboveTheCapacity : Obligations.CapacityExceededExactlyAboveTheCapacity := by
  intro i s t h
  rw [Ne, exec_answers_error_iff h]
  refine ⟨⟨?_, ?_⟩, fun hmax he => he.mMax_lt_max.ne hmax⟩
  · intro he
    cases he with
    | capacityExceeded hsize hn hcap => exact ⟨_, _, rfl, hsize, hn, hcap⟩
  · rintro ⟨size, n, rfl, hsize, hn, hcap⟩
    exact .capacityExceeded hsize hn hcap

/-- Settles O28: the check of R142 comes first in all five, and no other check raises this error. -/
theorem notConfiguredExactlyWhenUnconfigured : Obligations.NotConfiguredExactlyWhenUnconfigured := by
  refine ⟨fun i s hK hi => exec_notConfigured_answers s hi hK, fun i s t h herror => ?_⟩
  cases (exec_answers_error_iff h).mp herror with
  | notConfigured hi hK => exact ⟨hK, hi⟩

/-- Settles O23: the invariant makes the command answer; an error has its place in the table, and a configured engine
fails no check of a filter command. -/
theorem responsesFollowTheTable : Obligations.ResponsesFollowTheTable := by
  intro i s hs
  obtain ⟨t, ht⟩ := exec_answers_of_inv hs i
  rcases exec_raises_or_completes ht with ⟨e, he⟩ | ⟨r, hr, htable, hnoerror⟩
  · refine ⟨t, .err e, ht, (exec_answers_error_iff ht).mpr he, he.tableAllows, fun hK hi => ?_⟩
    exact absurd (he.K_eq_zero hi) (K_ne_zero_of_pos hK)
  · exact ⟨t, r, ht, hr, htable, fun _ _ => hnoerror⟩

/-! ### The error is not latched -/

/-- R140: what an error leaves differs only in what no command sees. -/
theorem seenAlike_raise (e : ErrorCode) (s : State) : SeenAlike s (raise e s) :=
  ⟨rfl, rfl, rfl, rfl, rfl, rfl⟩

/-- A command answers alike in states that are seen alike. -/
theorem SeenAlike.answer {s t s' : State} {j : Instr} {r : Response} (h : SeenAlike s t) (hj : exec j s = .next s')
    (hr : s'.responses = s.responses ++ [r]) :
    ∃ t', exec j t = .next t' ∧ t'.responses = t.responses ++ [r] ∧ SameFilter s' t' := by
  rcases exec_alike h j with ⟨hfault, -⟩ | ⟨u, t', new, hu, ht', halike, hs, ht⟩
  · rw [hj] at hfault
    cases hfault
  · obtain rfl : s' = u := by simpa [hj] using hu
    obtain rfl : new = [r] := by simpa [hr] using hs.symm
    exact ⟨t', ht', ht, halike.M, halike.K, halike.BITS⟩

/-- Settles O22: the answer is `raise` alone, and the state it leaves is seen alike by every later command. -/
theorem errorLeavesTheFilterUnchanged : Obligations.ErrorLeavesTheFilterUnchanged := by
  intro i s t e h herror
  obtain rfl := eq_raise_of_raises h ((exec_answers_error_iff h).mp herror)
  exact ⟨⟨rfl, rfl, rfl⟩, rfl, rfl, rfl, fun _ _ _ hj hr => (seenAlike_raise e s).answer hj hr⟩

end Sys2Proof.Machine
end

section
/-! PROOFS. The errors at the port (R143, R145): illegal packets before everything else, then the command's own checks. -/

namespace Sys2Proof.Machine

theorem exists_decode_error_of_illegal {p : Packet} (hp : legalPacket p = false) : ∃ e, decode p = .error e := by
  rcases hd : decode p with e | i
  · exact ⟨e, rfl⟩
  · have hlegal : legalPacket p = true := (decodeAcceptsExactlyLegalPackets p).mp ⟨i, hd⟩
    simp [hp] at hlegal

/-- R143: check (1) of R145 ends the packet. -/
theorem step_illegalPacket {s : State} {p : Packet} (hf : s.fetch = some (.packet p)) (hp : legalPacket p = false) :
    step s = .next (raise .illegalCommand s).advance := by
  obtain ⟨e, hd⟩ := exists_decode_error_of_illegal hp
  exact step_illegal hf hd

/-- A check that the packet's command fails ends it. -/
theorem step_of_raises {s : State} {p : Packet} {i : Instr} {e : ErrorCode} (hf : s.fetch = some (.packet p))
    (hd : decode p = .ok i) (he : Raises s i e) : step s = .next (raise e s).advance := by
  rw [step_command hf hd, exec_of_raises he]
  rfl

/-- Settles O8: the answer is `raise` alone, and the host moves on. -/
theorem illegalPacketIsAnsweredIllegalCommand : Obligations.IllegalPacketIsAnsweredIllegalCommand :=
  fun _ _ hf hp => ⟨_, step_illegalPacket hf hp, rfl, ⟨rfl, rfl, rfl⟩, rfl, rfl, rfl⟩

/-- Settles O9: the first check is the decoder's, the other three are the constructors of `Raises`. -/
theorem checksAreMadeInOrder : Obligations.ChecksAreMadeInOrder := by
  intro s p hf
  refine ⟨fun hp => ?_, fun size n hd hbad => ?_, fun size n hd hsize hn hcap => ?_, fun i hd hi hK => ?_⟩
  · exact ⟨_, step_illegalPacket hf hp, rfl⟩
  · exact ⟨_, step_of_raises hf hd (.invalidConfiguration hbad), rfl⟩
  · exact ⟨_, step_of_raises hf hd (.capacityExceeded hsize hn hcap), rfl⟩
  · exact ⟨_, step_of_raises hf hd (.notConfigured hi hK), rfl⟩

/-- Settles O17: an illegal packet and a power-on reset are always answered, and by the invariant so is a command. -/
theorem stepNeverStops : Obligations.StepNeverStops :=
  fun _ => step_answers_of_inv

end Sys2Proof.Machine
end

section
/-! PROOFS. Reset and start-up (R160 to R163): what power-on leaves, and that one CONFIG that succeeds is all the boot
needed, since on a configured engine no command but CONFIG fails a check, and none takes it back to unconfigured. -/

namespace Sys2Proof.Machine

/-- Settles O10: the fields of `State.reset`, whose array is the all-false one. -/
theorem resetStateIsUnconfigured : Obligations.ResetStateIsUnconfigured :=
  ⟨rfl, rfl, read_allFalse⟩

/-- Settles O11: the step is `powerOnReset` alone, and the host moves on. -/
theorem powerOnResetUnconfigures : Obligations.PowerOnResetUnconfigures :=
  fun _ hf => ⟨_, step_powerOn hf, rfl, rfl, read_allFalse, rfl, rfl, rfl, rfl⟩

section
variable {s t : State} {i : Instr} {e : ErrorCode}

/-! ### A command that completes -/

theorem CompletesWithin.length_responses (h : CompletesWithin i s t) :
    t.responses.length = s.responses.length + 1 := by
  obtain ⟨r, hr, -, -⟩ := h
  rw [hr, List.length_append, List.length_singleton]

theorem CompletesWithin.noErrorReported (h : CompletesWithin i s t) (hs : s.noErrorReported = true) :
    t.noErrorReported = true := by
  obtain ⟨r, hr, -, hnoerror⟩ := h
  rw [State.noErrorReported] at hs ⊢
  simp [hr, hs, hnoerror]

/-! ### The inductive invariant -/

/-- The engine is configured, and no response so far was an error (R163). -/
structure Booted (s : State) : Prop where
  inv : s.Inv
  configured : 1 ≤ s.K.toInt
  noError : s.noErrorReported = true

/-- The next step answers one response and leaves the engine booted. -/
def StepsBooted (s : State) : Prop :=
  ∃ t, step s = .next t ∧ Booted t ∧ t.responses.length = s.responses.length + 1

/-- A packet whose command completes and leaves the engine configured. -/
theorem stepsBooted_of_completes (hs : s.Inv) (hnoerror : s.noErrorReported = true) (hi : i.wellFormed = true)
    (hf : s.fetch = some (.packet (encode i))) (ht : exec i s = .next t) (hcompletes : CompletesWithin i s t)
    (hK : 1 ≤ t.K.toInt) : StepsBooted s := by
  have hstep : step s = .next t.advance := step_encode hi hf ht
  exact ⟨t.advance, hstep, ⟨stepKeepsTheInvariant s _ hs hstep, hK, hcompletes.noErrorReported hnoerror⟩,
    hcompletes.length_responses⟩

/-- R111: the CONFIG that boots the engine. -/
theorem stepsBooted_config {size : Word} {n : Word32} (hs : s.Inv) (hnoerror : s.noErrorReported = true)
    (hsize : size ≠ 0) (hn : 0 < n.toInt) (hcap : size ≤ s.mMax)
    (hf : s.fetch = some (.packet (encode (.config size n)))) : StepsBooted s :=
  stepsBooted_of_completes hs hnoerror rfl hf (exec_config_ok hsize hn hcap) ⟨.ok, rfl, rfl, rfl⟩ hn

/-- R145: of the checks only CONFIG's own are left on a configured engine. -/
theorem not_raises_of_configured (hK : 1 ≤ s.K.toInt) (hi : ∀ size n, i ≠ .config size n) : ¬ Raises s i e := by
  intro he
  cases he with
  | invalidConfiguration | capacityExceeded => exact hi _ _ rfl
  | notConfigured _ hzero => exact K_ne_zero_of_pos hK hzero

/-- R150, R17: on a booted engine a command other than CONFIG completes, and the engine stays booted. -/
theorem Booted.stepsBooted (h : Booted s) (hi : i.wellFormed = true) (hcmd : ∀ size n, i ≠ .config size n)
    (hf : s.fetch = some (.packet (encode i))) : StepsBooted s := by
  obtain ⟨hs, hK, hnoerror⟩ := h
  obtain ⟨t, ht⟩ := exec_answers_of_inv hs i
  have hKt : 1 ≤ t.K.toInt := (configuredEngineStaysConfigured i s t ht).1 hK
  rcases exec_raises_or_completes ht with ⟨e, he⟩ | hcompletes
  · exact absurd he (not_raises_of_configured hK hcmd)
  · exact stepsBooted_of_completes hs hnoerror hi hf ht hcompletes hKt

/-! ### Runs -/

/-- The run of a booted engine to the end of its program, one response for each command. -/
theorem Booted.run {cmds : List Instr} (h : Booted s)
    (hcmds : ∀ i ∈ cmds, i.wellFormed = true ∧ ∀ size n, i ≠ .config size n)
    (hprogram : s.program.drop s.index = cmds.map (fun i => .packet (encode i))) :
    ∃ u, runSteps cmds.length s = .next u ∧ Booted u ∧ u.program.length ≤ u.index ∧
      u.responses.length = s.responses.length + cmds.length := by
  induction cmds generalizing s with
  | nil => exact ⟨s, rfl, h, List.drop_eq_nil_iff.mp hprogram, rfl⟩
  | cons i cmds ih =>
    obtain ⟨⟨hi, hcmd⟩, hcmds⟩ := List.forall_mem_cons.mp hcmds
    obtain ⟨t, ht, hbooted, hone⟩ := h.stepsBooted hi hcmd (fetch_of_drop hprogram)
    obtain ⟨u, hu, hlast, hover, hlength⟩ := ih hbooted hcmds (drop_of_step hprogram ht)
    refine ⟨u, (runSteps_succ _ ht).trans hu, hlast, hover, ?_⟩
    rw [List.length_cons]
    omega

/-- R163, from every state with the invariant and no error so far: a CONFIG that succeeds and then commands other than
CONFIG run to the end of the program without an error. -/
theorem run_from_config {size : Word} {n : Word32} {cmds : List Instr} (hs : s.Inv)
    (hnoerror : s.noErrorReported = true) (hsize : size ≠ 0) (hn : 0 < n.toInt) (hcap : size ≤ s.mMax)
    (hcmds : ∀ i ∈ cmds, i.wellFormed = true ∧ ∀ size n, i ≠ .config size n)
    (hprogram : s.program.drop s.index = (Instr.config size n :: cmds).map (fun i => .packet (encode i))) :
    ∃ u, runSteps (cmds.length + 1) s = .next u ∧ u.index = u.program.length ∧
      u.responses.length = s.responses.length + (cmds.length + 1) ∧ u.noErrorReported = true := by
  obtain ⟨t, ht, hbooted, hone⟩ := stepsBooted_config hs hnoerror hsize hn hcap (fetch_of_drop hprogram)
  obtain ⟨u, hu, hlast, hover, hlength⟩ := hbooted.run hcmds (drop_of_step hprogram ht)
  obtain ⟨-, -, -, hwithin⟩ := hlast.inv
  refine ⟨u, (runSteps_succ _ ht).trans hu, Nat.le_antisymm hwithin hover, ?_, hlast.noError⟩
  omega

end

/-- Loading a program (log 7) does not touch what the invariant says of the engine after power-on. -/
theorem inv_reset_withProgram (program : List HostEvent) : { State.reset with program := program }.Inv := by
  obtain ⟨hMK, hwf, hmax, -⟩ := resetSatisfiesTheInvariant
  exact ⟨hMK, hwf, hmax, Nat.zero_le _⟩

/-- Settles O41: `run_from_config` from the loaded reset state, whose default capacity no `size` exceeds. -/
theorem oneConfigIsAllTheBootNeeded : Obligations.OneConfigIsAllTheBootNeeded := by
  intro size n cmds hsize hn hcmds
  have hcap : size ≤ Config.mMaxDefault := Nat.le_of_lt_succ size.isLt
  obtain ⟨u, hu, hindex, hlength, hnoerror⟩ :=
    run_from_config (inv_reset_withProgram _) rfl hsize hn hcap hcmds rfl
  exact ⟨u, hu, hindex, hlength.trans (Nat.zero_add _), hnoerror⟩

end Sys2Proof.Machine
end
